-- ==== Sys2Proof/Word.lean ====
section
/-! DEFINITION. Bytes, strings and character codes (00_scope.md R10, R12). -/

namespace Sys2Proof

/-- A byte: an unsigned 8-bit value (00_scope.md R10). -/
abbrev Byte := BitVec 8

/-- A string: a finite sequence of bytes, the first transmitted byte first (00_scope.md R10, 20_memory.md R70). -/
abbrev Bytes := List Byte

/-- The line feed, one byte (00_scope.md R12; PRESUMED, general knowledge G1 and G2, log 21). -/
def chLF : Byte := 0x0A
/-- The character `#` (00_scope.md R12). -/
def chHash : Byte := 0x23
/-- The character `$` (00_scope.md R12). -/
def chDollar : Byte := 0x24
/-- The character `0`; digit `k` is `0x30 + k` (00_scope.md R12). -/
def chZero : Byte := 0x30
/-- The character `A` (00_scope.md R12). -/
def chA : Byte := 0x41
/-- The character `D` (00_scope.md R12). -/
def chD : Byte := 0x44
/-- The character `E` (00_scope.md R12). -/
def chE : Byte := 0x45
/-- The character `F` (00_scope.md R12). -/
def chF : Byte := 0x46
/-- The character `H` (00_scope.md R12). -/
def chH : Byte := 0x48
/-- The character `I` (00_scope.md R12). -/
def chI : Byte := 0x49
/-- The character `L` (00_scope.md R12). -/
def chL : Byte := 0x4C
/-- The character `M` (00_scope.md R12). -/
def chM : Byte := 0x4D
/-- The character `O` (00_scope.md R12). -/
def chO : Byte := 0x4F
/-- The character `R` (00_scope.md R12). -/
def chR : Byte := 0x52
/-- The character `S` (00_scope.md R12). -/
def chS : Byte := 0x53
/-- The character `T` (00_scope.md R12). -/
def chT : Byte := 0x54
/-- The character `W` (00_scope.md R12). -/
def chW : Byte := 0x57

/-- The string `HELLO` and a line feed (30_encoding.md R111). -/
def strHello : Bytes := [chH, chE, chL, chL, chO, chLF]
/-- The string `WRITED` and a line feed (30_encoding.md R111). -/
def strWrited : Bytes := [chW, chR, chI, chT, chE, chD, chLF]
/-- The string `ERASED` (30_encoding.md R111). -/
def strErased : Bytes := [chE, chR, chA, chS, chE, chD]

end Sys2Proof
end

