-- ==== Sys2Proof/Syntax.lean ====
section
/-! DEFINITION. The instructions: the six request frames and the six response shapes of the opcode table
(30_encoding.md R101 to R106, R111), each one transaction step of the session (log 10). -/

namespace Sys2Proof

/-- The device's storage type (10_state.md R34). -/
inductive MemoryModel where
  | eeprom
  | flash
deriving DecidableEq, Repr, Inhabited

/-- What one `LinkRead` returned: a string, or `IoError` (10_state.md R51, 30_encoding.md R117). -/
inductive ReadResult where
  | data (r : Bytes)
  | ioError
deriving DecidableEq, Repr, Inhabited

/-- What one `LinkWrite` returned (10_state.md R51). -/
inductive WriteResult where
  | ok
  | ioError
deriving DecidableEq, Repr, Inhabited

/-- One constructor per row of the opcode table. A request carries the fields of its frame; a response carries
what the `LinkRead` returned, as a line of the trace syntax does (30_encoding.md R117). -/
inductive Instr where
  /-- `$H#`, the handshake request (30_encoding.md R101, 41_session.md R202). -/
  | reqH
  /-- `$I#`, the info request (30_encoding.md R102, 41_session.md R204). -/
  | reqI
  /-- `$Md#`, the memory-model request (30_encoding.md R103, 41_session.md R206). -/
  | reqM (model : MemoryModel)
  /-- `$FESsssccc#`, the sector-erase request (30_encoding.md R104, 41_session.md R208). The count is the natural
  `sectorCount` gives; a count above 255 has no frame and is refused by its meaning. -/
  | reqFES (start : Byte) (count : Nat)
  /-- `$Wkkkaaaaaaaaddd...#`, the write request: checksum, wire address, data bytes
  (30_encoding.md R105, 41_session.md R211). -/
  | reqW (cks : Byte) (addr : Nat) (data : Bytes)
  /-- `$Raaaaaaaalll#`, the read-back request: wire address, length (30_encoding.md R106, 41_session.md R213). -/
  | reqR (addr : Nat) (len : Byte)
  /-- The handshake response (30_encoding.md R111, 41_session.md R203). -/
  | rspHELLO (res : ReadResult)
  /-- The info response (30_encoding.md R111, 41_session.md R205). -/
  | rspINFO (res : ReadResult)
  /-- The memory-model response (30_encoding.md R111, 41_session.md R207). -/
  | rspMODEL (res : ReadResult)
  /-- The erase response (30_encoding.md R111, 41_session.md R209). -/
  | rspERASED (res : ReadResult)
  /-- The write response (30_encoding.md R111, 41_session.md R212). -/
  | rspWRITED (res : ReadResult)
  /-- The read-back response (30_encoding.md R111, R112, 41_session.md R214). -/
  | rspREADBACK (res : ReadResult)
deriving DecidableEq, Repr

end Sys2Proof
end

