-- ==== Sys2Proof/Config.lean ====
section
/-! DEFINITION. The parameters of 00_scope.md R8, their legal ranges, and the free values (constants with no
body, of which nothing can be proved). -/

namespace Sys2Proof

/-- The protocol variant (00_scope.md R2, 10_state.md R35). -/
inductive Variant where
  | canonical
  | legacy
deriving DecidableEq, Repr, Inhabited

/-- The meaning of a sector count above 255: one legal value (00_scope.md R8, decision D10). -/
inductive EraseCountPolicy where
  | refuse
deriving DecidableEq, Repr, Inhabited

/-- The parameters of 00_scope.md R8 that a rule reads (`TIMEOUT` is `Config.timeout`). -/
structure Params where
  chunkSize : Nat
  byteDigits : Nat
  addrDigits : Nat
  maxRespH : Nat
  maxRespI : Nat
  maxRespM : Nat
  maxRespFES : Nat
  maxRespW : Nat
  maxRespR : Nat
  rbHdrLen : Nat
  rbTrailLen : Nat
  sectorSize : Nat
  eraseStartSector : Nat
  variant : Variant
  addrW : Nat
  fsizeW : Nat
  eraseCountPolicy : EraseCountPolicy
deriving DecidableEq, Repr

/-- The values of the source and of the spec's decisions (00_scope.md R4, R8). -/
def Params.source : Params where
  chunkSize := 100
  byteDigits := 3
  addrDigits := 8
  maxRespH := 20
  maxRespI := 100
  maxRespM := 20
  maxRespFES := 40
  maxRespW := 20
  maxRespR := 500
  rbHdrLen := 6
  rbTrailLen := 1
  sectorSize := 4096
  eraseStartSector := 0
  variant := .canonical
  addrW := 32
  fsizeW := 32
  eraseCountPolicy := .refuse

/-- Every parameter but `VARIANT` is in its legal range (00_scope.md R8, the column "legal range"). -/
def Params.inRange (p : Params) : Bool :=
  decide (1 ≤ p.chunkSize) && decide (p.chunkSize ≤ 100) &&
  p.byteDigits == 3 && p.addrDigits == 8 &&
  decide (6 ≤ p.maxRespH) && decide (1 ≤ p.maxRespI) && decide (2 ≤ p.maxRespM) &&
  decide (6 ≤ p.maxRespFES) && decide (7 ≤ p.maxRespW) && decide (18 + 3 * p.chunkSize ≤ p.maxRespR) &&
  p.rbHdrLen == 6 && p.rbTrailLen == 1 && p.sectorSize == 4096 && p.eraseStartSector == 0 &&
  decide (27 ≤ p.addrW) && p.fsizeW == p.addrW

/-- No read limit is above the size of `RESP`. 00_scope.md R8 does not ask for it; the source's values have it,
and without it a response may not fit its buffer (log 13). -/
def Params.readLimitsFit (p : Params) : Bool :=
  decide (p.maxRespH ≤ p.maxRespR) && decide (p.maxRespI ≤ p.maxRespR) && decide (p.maxRespM ≤ p.maxRespR) &&
  decide (p.maxRespFES ≤ p.maxRespR) && decide (p.maxRespW ≤ p.maxRespR)

/-- The parameter `TIMEOUT`, open (00_scope.md R8, decision D30). No rule reads it (log 25). -/
opaque Config.timeout : Nat

/-- The free value of the `n`-th Link draw, where it is a read: what `LinkRead` answers when State lists no next
answer (20_memory.md R78, log 3). -/
opaque Config.freeRead : Nat → ReadResult

/-- The free value of the `n`-th Link draw, where it is a write (92_eei_decisions.md D31, log 4). -/
opaque Config.freeWrite : Nat → WriteResult

/-- The free value of the progress formula for `fsize = 0`, by address (91_not_in_source.md N19, log 14). -/
opaque Config.freeProgress : Nat → Nat

/-- The free value of `DIAG_EXP` for an error code to which 60_exceptions.md R261 gives none, by the code's
number (log 15). -/
opaque Config.freeDiagExp : Nat → BitVec 16

end Sys2Proof
end

