-- ==== Sys2Proof/Machine/Codec.lean ====
section
/-! DEFINITION. The codec and the checksum engine (40_codec.md): pure functions of their operands, no state. -/

namespace Sys2Proof.Machine
open Sys2Proof

/-- `checksum(c)`: the sum of the bytes, wrapped to 8 bits (40_codec.md R140). -/
def checksum (c : Bytes) : Byte :=
  BitVec.ofNat 8 (c.map BitVec.toNat).sum

/-- The ASCII digit of `d`, for `d ≤ 9` (00_scope.md R12). -/
def digitByte (d : Nat) : Byte :=
  BitVec.ofNat 8 (0x30 + d)

/-- A byte is an ASCII decimal digit (00_scope.md R12). -/
def isDigit (b : Byte) : Bool :=
  decide (0x30 ≤ b.toNat) && decide (b.toNat ≤ 0x39)

/-- `encodeByte(v)`: hundreds, tens, units (40_codec.md R141). The domain 0..255 is the operand's type (log 28). -/
def encodeByte (v : Byte) : Bytes :=
  [digitByte (v.toNat / 100), digitByte (v.toNat / 10 % 10), digitByte (v.toNat % 10)]

/-- `encodeFixed8Digit(v)`: digits by division by 10^7 down to 10^0; leading digits are lost
(40_codec.md R142). -/
def encodeFixed8Digit (v : Nat) : Bytes :=
  (List.range 8).map fun k => digitByte (v / 10 ^ (7 - k) % 10)

/-- The value of a string of digits, most significant first (40_codec.md R143). -/
def digitsValue : Bytes → Nat
  | [] => 0
  | b :: bs => (b.toNat - 0x30) * 10 ^ bs.length + digitsValue bs

/-- `decodeFixed(s, w)` (40_codec.md R143): `none` is the verdict `MalformedField`, for a wrong length or a
non-digit. The value is not range-checked. -/
def decodeFixed (s : Bytes) (w : Nat) : Option Nat :=
  if s.length = w ∧ s.all isDigit then some (digitsValue s) else none

/-- The encoding of a memory model: EEPROM 0, FLASH 1 (10_state.md R34). -/
def modelCode : MemoryModel → Nat
  | .eeprom => 0
  | .flash => 1

/-- `digit(model)` (40_codec.md R144). -/
def modelDigit (model : MemoryModel) : Byte :=
  digitByte (modelCode model)

/-- The data fields of a chunk, in File order (20_memory.md R71). -/
def encodeData (data : Bytes) : Bytes :=
  data.flatMap encodeByte

/-- `buildH()` (40_codec.md R150). -/
def buildH : Bytes := [chDollar, chH, chHash]

/-- `buildI()` (40_codec.md R151). -/
def buildI : Bytes := [chDollar, chI, chHash]

/-- `buildM(model)` (40_codec.md R152). -/
def buildM (model : MemoryModel) : Bytes := [chDollar, chM, modelDigit model, chHash]

/-- `buildFES(startSector, sectorCount)` (40_codec.md R153). -/
def buildFES (start count : Byte) : Bytes :=
  [chDollar, chF, chE, chS] ++ encodeByte start ++ encodeByte count ++ [chHash]

/-- `buildRef(cks, addr, chunk)`, the reference string (40_codec.md R156). -/
def buildRef (cks : Byte) (addr : Nat) (data : Bytes) : Bytes :=
  encodeByte cks ++ encodeFixed8Digit addr ++ encodeData data

/-- `buildW(cks, addr, chunk)` (40_codec.md R154). -/
def buildW (cks : Byte) (addr : Nat) (data : Bytes) : Bytes :=
  [chDollar, chW] ++ encodeByte cks ++ encodeFixed8Digit addr ++ encodeData data ++ [chHash]

/-- `buildR(addr, n)` (40_codec.md R155). -/
def buildR (addr : Nat) (len : Byte) : Bytes :=
  [chDollar, chR] ++ encodeFixed8Digit addr ++ encodeByte len ++ [chHash]

/-- `expectedLen(n)`: header, checksum, address, data, trailer (40_codec.md R157). -/
def expectedLen (p : Params) (n : Nat) : Nat :=
  p.rbHdrLen + 3 + 8 + 3 * n + p.rbTrailLen

/-- `sectorCount(fsize)` (40_codec.md R158). -/
def sectorCount (p : Params) (fsize : Nat) : Nat :=
  fsize / p.sectorSize + 1

/-- `progressPct(addr, fsize)` on unbounded naturals (40_codec.md R159). The rule asks for `fsize > 0`; for 0 the
value is free (log 14). -/
def progressPct (addr fsize : Nat) : Nat :=
  if fsize = 0 then Config.freeProgress addr else addr * 100 / fsize

/-- The address on the wire: `ADDR mod 10^8` (20_memory.md R74). -/
def wireAddr (addr : Nat) : Nat :=
  addr % 10 ^ 8

end Sys2Proof.Machine
end

