-- ==== Sys2Proof/Machine/State.lean ====
section
/-! DEFINITION. The state of the block (10_state.md R30 to R47), the state of the agents around it that its steps
read (R50 to R54), the reasons a step can stop, and the state after reset (R55). -/

namespace Sys2Proof.Machine
open Sys2Proof

/-- The phase register's values (10_state.md R30). The unused codes 11 to 15 are left out (log 18). -/
inductive Phase where
  | idle
  | handshake
  | info
  | model
  | erase
  | fetch
  | write
  | readback
  | done
  | aborted
  | refused
deriving DecidableEq, Repr

/-- The I/O sub-phase: 0 is SEND, 1 is RECV (10_state.md R31). -/
inductive IoPhase where
  | send
  | recv
deriving DecidableEq, Repr

/-- The error codes (10_state.md R43). The unused codes 10 to 15 are left out (log 18). -/
inductive ErrCode where
  | none
  | handshakeFailed
  | noInfoResponse
  | modelRejected
  | eraseFailed
  | writeRejected
  | readbackShapeMismatch
  | verifyMismatch
  | ioError
  | malformedField
deriving DecidableEq, Repr

/-- The sub-causes of `IO_ERROR` (10_state.md R44). -/
inductive IoCause where
  | none
  | portNotOpen
  | linkWrite
  | linkRead
deriving DecidableEq, Repr

/-- The causes of a refusal (10_state.md R47). The unused codes 5 to 7 are left out (log 18). -/
inductive RefuseReason where
  | none
  | variantLegacy
  | parameterIllegal
  | sectorCountOver255
  | fileTooLarge
deriving DecidableEq, Repr

/-- The internal buffers, each byte-addressed from 0 (20_memory.md R73). -/
inductive Buffer where
  | chunk
  | resp
  | info
  | diagCmd
deriving DecidableEq, Repr

/-- The contents of a buffer: the bytes that have a value, addresses strictly rising. A byte that is not listed has
no value (10_state.md R55, log 2). -/
abbrev Memory := List Host.Cell

/-- `cfg` of `Start` (10_state.md R50). -/
structure StartCfg where
  write : Bool
  erase : Bool
  model : MemoryModel
  start : Nat
deriving DecidableEq, Repr

/-- A move of the Host: its two inputs to the block (10_state.md R50) and what it does to the File and the Link
while no session owns them (70_reset_and_hazards.md R302, 60_exceptions.md R283, log 6). -/
inductive HostMove where
  /-- `Start(cfg)` (41_session.md R201). -/
  | start (cfg : StartCfg)
  /-- `Terminate` (60_exceptions.md R266). -/
  | terminate
  /-- Opens the File `f` and seeks its cursor to `pos` (70_reset_and_hazards.md R302, items 2 and 3). -/
  | openFile (f : Bytes) (pos : Nat)
  /-- Opens the Link, which succeeds or not (70_reset_and_hazards.md R302, item 4). -/
  | openLink (ok : Bool)
deriving DecidableEq, Repr

/-- A port operation or output event (20_memory.md R86, 41_session.md R225). -/
inductive PortEvent where
  | tx (frame : Bytes)
  | txErr (frame : Bytes)
  | rx (max : Nat) (r : Bytes)
  | rxErr (max : Nat)
  | file (m : Nat) (bytes : Bytes)
  | progress (p : BitVec 7)
  | fileSize (n : Nat)
  | linkIsOpen (b : Bool)
deriving DecidableEq, Repr

/-- The state. The fields up to `rreason` are the block's (10_state.md R48), but for `params`; the rest is the
Host's, the Link's and the File's, and the record of port operations. -/
structure State where
  /-- The parameters of 00_scope.md R8; no step writes them (log 12). -/
  params : Params
  /-- `ph` (10_state.md R30). -/
  ph : Phase
  /-- `iop` (10_state.md R31). -/
  iop : IoPhase
  /-- `CFG_WRITE` (10_state.md R32). -/
  cfgWrite : Bool
  /-- `CFG_ERASE` (10_state.md R33). -/
  cfgErase : Bool
  /-- `CFG_MODEL` (10_state.md R34). -/
  cfgModel : MemoryModel
  /-- `CFG_VARIANT` (10_state.md R35). -/
  cfgVariant : Variant
  /-- `ADDR`, `ADDR_W` bits: every write stores its value mod `2^ADDR_W` (10_state.md R36, log 12). -/
  addr : Nat
  /-- `FSIZE`, `FSIZE_W` bits: every write stores its value mod `2^FSIZE_W` (10_state.md R37, log 12). -/
  fsize : Nat
  /-- `CHUNK` (10_state.md R38). -/
  chunk : Memory
  /-- `CLEN` (10_state.md R39). -/
  clen : BitVec 8
  /-- `CKS` (10_state.md R40). -/
  cks : BitVec 8
  /-- `RESP` (10_state.md R41). -/
  resp : Memory
  /-- `RESP_LEN` (10_state.md R41). -/
  respLen : Nat
  /-- `INFO` (10_state.md R42). -/
  info : Memory
  /-- `INFO_LEN` (10_state.md R42). -/
  infoLen : Nat
  /-- `ERR` (10_state.md R43). -/
  err : ErrCode
  /-- `IOCAUSE` (10_state.md R44). -/
  ioCause : IoCause
  /-- `PROGRESS` (10_state.md R45). -/
  progress : BitVec 7
  /-- `DIAG_CMD` (10_state.md R46). -/
  diagCmd : Memory
  /-- `DIAG_CMD_LEN` (10_state.md R46). -/
  diagCmdLen : Nat
  /-- `DIAG_EXP` (10_state.md R46). -/
  diagExp : BitVec 16
  /-- `DIAG_ACT` (10_state.md R46). -/
  diagAct : BitVec 16
  /-- `RREASON` (10_state.md R47). -/
  rreason : RefuseReason
  /-- The Host's coming moves, one entry a step; when none is left the Host is silent (log 5). -/
  hostMoves : List (Option HostMove)
  /-- What `LinkIsOpen()` answers (10_state.md R51, log 4). -/
  linkOpen : Bool
  /-- What the coming `LinkWrite`s answer; then free values (10_state.md R51, log 4). -/
  linkWrites : List WriteResult
  /-- What the coming `LinkRead`s answer; then free values (20_memory.md R78, log 3). -/
  linkReads : List ReadResult
  /-- How many free values the Link has drawn (the model's own counter, log 3). -/
  linkDraws : Nat
  /-- The launch file `F` (10_state.md R52). -/
  file : Bytes
  /-- The File's cursor (10_state.md R52, R54). -/
  fcur : Nat
  /-- The port operations so far, oldest first (20_memory.md R86, log 16). -/
  trace : List PortEvent
deriving DecidableEq, Repr

/-- Why the model stops. None is a behaviour of the block. -/
inductive Fault where
  /-- Raised by step selection for a `(ph, iop)` pair that 41_session.md R200 calls unreachable ("A model faults on
  one"). Safe: the hardware has no such state. -/
  | unreachablePhase (ph : Phase) (iop : IoPhase)
  /-- Raised by a meaning run in a `(ph, iop)` that does not enable it (41_session.md R200). Safe: `step` never does
  so. -/
  | stepNotEnabled
  /-- Raised by `MemRead` and `MemWrite` outside a buffer (20_memory.md R73: none happens). Safe: the model stops. -/
  | bufferRange (b : Buffer)
  /-- Raised by `MemRead` of a byte that has no value (10_state.md R55: a model faults on a read). Safe: the model
  stops. -/
  | noValue (b : Buffer)
deriving DecidableEq, Repr

/-- Why the model gives an instruction no meaning. -/
inductive Refusal where
  /-- Raised by `exec`'s arm of an instruction that has no meaning yet; no arm raises it now. Safe: nothing is
  claimed of it. -/
  | notModelled (mnemonic : String)
deriving DecidableEq, Repr

/-- The outcome of a step or a meaning. -/
abbrev Out := Host.Outcome State Fault Refusal

/-- The block right after reset (10_state.md R55, 70_reset_and_hazards.md R300), with nothing launched: no Host
move, no File, no open Link. The registers R55 gives "no value" hold 0, EEPROM and CANONICAL (DESIGN CHOICE,
unsafe, log 1). -/
def State.reset : State where
  params := Params.source
  ph := .idle
  iop := .send
  cfgWrite := false
  cfgErase := false
  cfgModel := .eeprom
  cfgVariant := .canonical
  addr := 0
  fsize := 0
  chunk := []
  clen := 0
  cks := 0
  resp := []
  respLen := 0
  info := []
  infoLen := 0
  err := .none
  ioCause := .none
  progress := 0
  diagCmd := []
  diagCmdLen := 0
  diagExp := 0
  diagAct := 0
  rreason := .none
  hostMoves := []
  linkOpen := false
  linkWrites := []
  linkReads := []
  linkDraws := 0
  file := []
  fcur := 0
  trace := []

end Sys2Proof.Machine
end

