-- ==== Sys2Proof/Machine/Ops.lean ====
section
/-! DEFINITION. The shared operations: buffer memory (00_scope.md R11), the ports (10_state.md R51, R52), abort entry
(60_exceptions.md R270), refusal (R276), reset (70_reset_and_hazards.md R300), and the procedures `tx` and `rx`
(41_session.md R218, R219). -/

namespace Sys2Proof.Machine
open Sys2Proof

/-! ## Memory -/

/-- The byte at an address, `none` where it has no value. -/
def memGet : Memory → Nat → Option Byte
  | [], _ => none
  | (x, v) :: m, a => if a = x then some v else memGet m a

/-- Writes one byte, keeping the addresses strictly rising. -/
def memPut : Memory → Nat → Byte → Memory
  | [], a, b => [(a, b)]
  | (x, v) :: m, a, b =>
    if a < x then (a, b) :: (x, v) :: m
    else if a = x then (a, b) :: m
    else (x, v) :: memPut m a b

/-- Writes a string from an address up. -/
def memPutBytes : Memory → Nat → Bytes → Memory
  | m, _, [] => m
  | m, a, b :: bs => memPutBytes (memPut m a b) (a + 1) bs

/-- Reads `n` bytes from an address up, `none` where one has no value. -/
def memGetBytes (m : Memory) (a : Nat) : Nat → Option Bytes
  | 0 => some []
  | n + 1 =>
    match memGet m a, memGetBytes m (a + 1) n with
    | some b, some bs => some (b :: bs)
    | _, _ => none

/-- The canonical form: every listed address is above `lo` and they rise strictly. -/
def memAbove (lo : Nat) : Memory → Bool
  | [] => true
  | (x, _) :: m => decide (lo ≤ x) && memAbove (x + 1) m

/-- The canonical form of a memory: addresses strictly rising. -/
def memWf (m : Memory) : Bool := memAbove 0 m

/-- Every listed address is below a bound. -/
def memBelow (hi : Nat) (m : Memory) : Bool := m.all fun c => decide (c.1 < hi)

/-- The size of a buffer (20_memory.md R73). -/
def capacity (p : Params) : Buffer → Nat
  | .chunk => p.chunkSize
  | .resp => p.maxRespR
  | .info => p.maxRespI
  | .diagCmd => 14 + 3 * p.chunkSize

/-- The contents of a buffer. -/
def bufOf (s : State) : Buffer → Memory
  | .chunk => s.chunk
  | .resp => s.resp
  | .info => s.info
  | .diagCmd => s.diagCmd

/-- The state with a buffer's contents replaced. -/
def setBuf (s : State) (b : Buffer) (m : Memory) : State :=
  match b with
  | .chunk => { s with chunk := m }
  | .resp => { s with resp := m }
  | .info => { s with info := m }
  | .diagCmd => { s with diagCmd := m }

/-- `MemRead(B, i, n)` (00_scope.md R11): faults outside the buffer and on a byte that has no value. -/
def memRead (s : State) (b : Buffer) (i n : Nat) : Except Fault Bytes :=
  if i + n ≤ capacity s.params b then
    match memGetBytes (bufOf s b) i n with
    | some bs => .ok bs
    | none => .error (.noValue b)
  else .error (.bufferRange b)

/-- `MemWrite(B, i, n, v)` with `len(v) = n` (00_scope.md R11), then `k`: faults outside the buffer. The other bytes
keep what they hold (log 23). -/
def memWrite (s : State) (b : Buffer) (i : Nat) (v : Bytes) (k : State → Out) : Out :=
  if i + v.length ≤ capacity s.params b then k (setBuf s b (memPutBytes (bufOf s b) i v))
  else .fault (.bufferRange b)

/-! ## Ports -/

/-- Records a port operation (20_memory.md R86). -/
@[simps] def record (e : PortEvent) (s : State) : State :=
  { s with trace := s.trace ++ [e] }

/-- The answer of the next `LinkWrite`, and the Link after it (log 4). -/
def drawWrite (s : State) : WriteResult × State :=
  match s.linkWrites with
  | w :: ws => (w, { s with linkWrites := ws })
  | [] => (Config.freeWrite s.linkDraws, { s with linkDraws := s.linkDraws + 1 })

/-- `LinkWrite(f)`: one whole frame (20_memory.md R79). -/
def linkWrite (f : Bytes) (s : State) : WriteResult × State :=
  match drawWrite s with
  | (.ok, s1) => (.ok, record (.tx f) s1)
  | (.ioError, s1) => (.ioError, record (.txErr f) s1)

/-- The answer of the next `LinkRead`, and the Link after it (log 3). -/
def drawRead (s : State) : ReadResult × State :=
  match s.linkReads with
  | r :: rs => (r, { s with linkReads := rs })
  | [] => (Config.freeRead s.linkDraws, { s with linkDraws := s.linkDraws + 1 })

/-- `LinkRead(m)`: a draw of at most `m` bytes, or `IoError` (20_memory.md R78). -/
def linkRead (m : Nat) (s : State) : ReadResult × State :=
  match drawRead s with
  | (.data r, s1) => (.data (r.take m), record (.rx m (r.take m)) s1)
  | (.ioError, s1) => (.ioError, record (.rxErr m) s1)

/-- `LinkIsOpen()` (10_state.md R51). -/
def linkIsOpen (s : State) : Bool × State :=
  (s.linkOpen, record (.linkIsOpen s.linkOpen) s)

/-- `FileRead(m)`: the next bytes from the cursor, which advances (10_state.md R52, 20_memory.md R80). -/
def fileRead (m : Nat) (s : State) : Bytes × State :=
  let c := (s.file.drop s.fcur).take m
  (c, record (.file m c) { s with fcur := s.fcur + c.length })

/-- `FileSize()` (10_state.md R52). -/
def fileSize (s : State) : Nat × State :=
  (s.file.length, record (.fileSize s.file.length) s)

/-- `emit Progress(p)` (10_state.md R53, 41_session.md R226). -/
def emitProgress (p : BitVec 7) (s : State) : State :=
  record (.progress p) s

/-! ## Registers with a width -/

/-- `ADDR <- v` (10_state.md R36, 00_scope.md R10: `v mod 2^w`). -/
@[simps] def setAddr (v : Nat) (s : State) : State :=
  { s with addr := v % 2 ^ s.params.addrW }

/-- `FSIZE <- v` (10_state.md R37, 00_scope.md R10). -/
@[simps] def setFsize (v : Nat) (s : State) : State :=
  { s with fsize := v % 2 ^ s.params.fsizeW }

/-! ## Abort, refusal, reset -/

/-- The number of an error code (10_state.md R43). -/
def errNumber : ErrCode → Nat
  | .none => 0
  | .handshakeFailed => 1
  | .noInfoResponse => 2
  | .modelRejected => 3
  | .eraseFailed => 4
  | .writeRejected => 5
  | .readbackShapeMismatch => 6
  | .verifyMismatch => 7
  | .ioError => 8
  | .malformedField => 9

/-- `exp(code)`: the column `DIAG_EXP` of 60_exceptions.md R261. The table gives none for `MALFORMED_FIELD`, and `NONE`
is no row: a free value there (log 15). -/
def expLen (s : State) : ErrCode → BitVec 16
  | .handshakeFailed => 6
  | .noInfoResponse => 0
  | .modelRejected => 2
  | .eraseFailed => 0
  | .writeRejected => 7
  | .readbackShapeMismatch => BitVec.ofNat 16 (expectedLen s.params s.clen.toNat)
  | .verifyMismatch => BitVec.ofNat 16 (expectedLen s.params s.clen.toNat)
  | .ioError => 0
  | .none => Config.freeDiagExp 0
  | .malformedField => Config.freeDiagExp 9

/-- Abort entry, `raise Abort(code, cause)`: the block's one exception (60_exceptions.md R270). -/
@[simps] def abort (code : ErrCode) (cause : IoCause) (s : State) : State :=
  { s with
    err := code
    ioCause := cause
    diagExp := expLen s code
    diagAct := if code = .ioError then 0 else BitVec.ofNat 16 s.respLen
    iop := .send
    ph := .aborted }

/-- `refuse(reason)` (00_scope.md R11, 60_exceptions.md R276). -/
@[simps] def refuse (reason : RefuseReason) (s : State) : State :=
  { s with rreason := reason, ph := .refused }

/-- Reset of the block (70_reset_and_hazards.md R300): every register and buffer as 10_state.md R55 says. The
parameters, the Host's moves, the Link, the File and the record are not the block's and stay (log 17). There is no
return from an abort; this is the only way out of a terminal phase (60_exceptions.md R274). -/
@[simps] def blockReset (s : State) : State :=
  { State.reset with
    params := s.params
    hostMoves := s.hostMoves
    linkOpen := s.linkOpen
    linkWrites := s.linkWrites
    linkReads := s.linkReads
    linkDraws := s.linkDraws
    file := s.file
    fcur := s.fcur
    trace := s.trace }

/-! ## The procedures common to the steps -/

/-- Runs a meaning where `(ph, iop)` selects it (41_session.md R200). -/
def whenEnabled (ph : Phase) (iop : IoPhase) (s : State) (o : Out) : Out :=
  if s.ph = ph ∧ s.iop = iop then o else .fault .stepNotEnabled

/-- `tx` after the frame stands in `DIAG_CMD`: the `LinkWrite` and what follows it (41_session.md R218). -/
def txSend (f : Bytes) (s : State) : State :=
  match linkWrite f s with
  | (.ok, s1) => { s1 with iop := .recv }
  | (.ioError, s1) => abort .ioError .linkWrite s1

/-- `tx(f)` (41_session.md R218). -/
def tx (f : Bytes) (s : State) : Out :=
  memWrite s .diagCmd 0 f fun s1 => .next (txSend f { s1 with diagCmdLen := f.length })

/-- `rx(m)` once the `LinkRead` has returned `res`, then `k` with the response (41_session.md R219). -/
def rx (res : ReadResult) (s : State) (k : Bytes → State → Out) : Out :=
  match res with
  | .ioError => .next (abort .ioError .linkRead { s with iop := .send, respLen := 0 })
  | .data r =>
    memWrite { s with iop := .send } .resp 0 r fun s1 => k r { s1 with respLen := r.length }

/-- What a user of `decodeFixed` does (60_exceptions.md R263): it aborts with code 9 on the verdict
`MalformedField`. The canonical session has no such user. -/
def withField (f : Bytes) (w : Nat) (s : State) (k : Nat → Out) : Out :=
  match decodeFixed f w with
  | some v => k v
  | none => .next (abort .malformedField .none s)

end Sys2Proof.Machine
end

