-- ==== Sys2Proof/Machine/Operands.lean ====
section
/-! DEFINITION. The operands the engine's registers give its requests, and the memory reads its checks make
(41_session.md, the operands of each step). -/

namespace Sys2Proof.Machine
open Sys2Proof

/-- `MemRead(CHUNK, 0, CLEN)`: the current chunk (41_session.md R211, R214). -/
def currentChunk (s : State) : Except Fault Bytes :=
  memRead s .chunk 0 s.clen.toNat

/-- The operand of `M`: `CFG_MODEL` (41_session.md R206). -/
def operandsM (s : State) : Instr := .reqM s.cfgModel

/-- The operands of `FES`: `ERASE_START_SECTOR` and `sectorCount(FSIZE)` (41_session.md R208). -/
def operandsFES (s : State) : Instr :=
  .reqFES (BitVec.ofNat 8 s.params.eraseStartSector) (sectorCount s.params s.fsize)

/-- The operands of `W`: `CKS`, the wire address of `ADDR`, and the chunk (41_session.md R211, 20_memory.md R74). -/
def operandsW (s : State) : Except Fault Instr :=
  match currentChunk s with
  | .ok c => .ok (.reqW s.cks (wireAddr s.addr) c)
  | .error f => .error f

/-- The operands of `R`: the wire address of `ADDR`, and `CLEN` (41_session.md R213). -/
def operandsR (s : State) : Instr := .reqR (wireAddr s.addr) s.clen

end Sys2Proof.Machine
end

