-- ==== Sys2Proof/Machine/Requests.lean ====
section
/-! DEFINITION. The six requests: the Tx steps of 41_session.md. -/

namespace Sys2Proof.Machine
open Sys2Proof

/-- HANDSHAKE Tx (41_session.md R202). -/
def execReqH (s : State) : Out :=
  whenEnabled .handshake .send s (tx buildH s)

/-- INFO Tx (41_session.md R204). -/
def execReqI (s : State) : Out :=
  whenEnabled .info .send s (tx buildI s)

/-- MODEL Tx (41_session.md R206). -/
def execReqM (model : MemoryModel) (s : State) : Out :=
  whenEnabled .model .send s (tx (buildM model) s)

/-- ERASE Tx (41_session.md R208): a count above 255 is refused before any byte of the frame is sent. -/
def execReqFES (start : Byte) (count : Nat) (s : State) : Out :=
  whenEnabled .erase .send s
    (if 255 < count then .next (refuse .sectorCountOver255 s)
     else tx (buildFES start (BitVec.ofNat 8 count)) s)

/-- WRITE Tx (41_session.md R211). -/
def execReqW (cks : Byte) (addr : Nat) (data : Bytes) (s : State) : Out :=
  whenEnabled .write .send s (tx (buildW cks addr data) s)

/-- READBACK Tx (41_session.md R213). -/
def execReqR (addr : Nat) (len : Byte) (s : State) : Out :=
  whenEnabled .readback .send s (tx (buildR addr len) s)

end Sys2Proof.Machine
end

