-- ==== Sys2Proof/Machine/Flags.lean ====
section
/-! DEFINITION. The response validators (40_codec.md R160 to R166). The block has no flags (10_state.md R49); these
verdicts are the decisions its steps take instead, true for ACCEPT. After them, the shape of a read-back response
as 30_encoding.md R112 gives it, without any register. -/

namespace Sys2Proof.Machine
open Sys2Proof

/-- `contains(s, t)`: `t` stands somewhere in `s` (00_scope.md R10). -/
def containsBytes (t : Bytes) : Bytes → Bool
  | [] => t.isEmpty
  | b :: s => t.isPrefixOf (b :: s) || containsBytes t s

/-- `valHello(r)` (40_codec.md R160). -/
def valHello (r : Bytes) : Bool := r == strHello

/-- `valInfo(r)` (40_codec.md R161). -/
def valInfo (r : Bytes) : Bool := decide (1 ≤ r.length)

/-- `valModel(r, d)` (40_codec.md R162): length 2, and the first byte is the digit that was sent. -/
def valModel (r : Bytes) (d : Byte) : Bool :=
  match r with
  | [b, _] => b == d
  | _ => false

/-- `valErased(r)` (40_codec.md R163). -/
def valErased (r : Bytes) : Bool := containsBytes strErased r

/-- `valWrited(r)` (40_codec.md R164). -/
def valWrited (r : Bytes) : Bool := r == strWrited

/-- `valRbShape(r, n)` (40_codec.md R165). -/
def valRbShape (p : Params) (r : Bytes) (n : Nat) : Bool := r.length == expectedLen p n

/-- The payload of a read-back response: without its header and trailer (40_codec.md R166, 30_encoding.md R112). -/
def rbPayload (p : Params) (r : Bytes) : Bytes :=
  (r.drop p.rbHdrLen).take (r.length - p.rbTrailLen - p.rbHdrLen)

/-- `valRbVerify(r, ref)`: the payload equals the reference string byte for byte (40_codec.md R166). -/
def valRbVerify (p : Params) (r ref : Bytes) : Bool := rbPayload p r == ref

/-- A string cut into fields of 3 characters. -/
def fields3 : Bytes → List Bytes
  | a :: b :: c :: rest => [a, b, c] :: fields3 rest
  | [] => []
  | rest => [rest]

/-- A byte field: three digits of a value 0..255 (30_encoding.md R108). -/
def isByteField (f : Bytes) : Bool :=
  match decodeFixed f 3 with
  | some v => decide (v ≤ 255)
  | none => false

/-- The payload of a read-back response as fields: checksum, address, data (30_encoding.md R112). -/
def isPayload (s : Bytes) : Bool :=
  isByteField (s.take 3) && (decodeFixed ((s.drop 3).take 8) 8).isSome && (fields3 (s.drop 11)).all isByteField

/-- The number of data bytes of a read-back response of length `len` (30_encoding.md R112: `18 + 3n`). -/
def rbCount (len : Nat) : Nat := (len - 18) / 3

/-- A response of the shape the row of the read-back response gives, whatever the registers hold
(30_encoding.md R111, R112). -/
def isReadback (p : Params) (r : Bytes) : Bool :=
  decide (1 ≤ rbCount r.length) && decide (rbCount r.length ≤ p.chunkSize) &&
  r.length == 18 + 3 * rbCount r.length && isPayload ((r.drop 6).take (r.length - 7))

end Sys2Proof.Machine
end

