-- ==== Sys2Proof/Machine/Responses.lean ====
section
/-! DEFINITION. The six responses: the Rx steps of 41_session.md, from what the `LinkRead` returned. -/

namespace Sys2Proof.Machine
open Sys2Proof

/-- HANDSHAKE Rx (41_session.md R203). -/
def execRspHELLO (res : ReadResult) (s : State) : Out :=
  whenEnabled .handshake .recv s <| rx res s fun r s1 =>
    if valHello r then .next { s1 with ph := .info }
    else .next (abort .handshakeFailed .none s1)

/-- INFO Rx (41_session.md R205). -/
def execRspINFO (res : ReadResult) (s : State) : Out :=
  whenEnabled .info .recv s <| rx res s fun r s1 =>
    if valInfo r then
      memWrite s1 .info 0 r fun s2 => .next { s2 with infoLen := r.length, ph := .model }
    else .next (abort .noInfoResponse .none s1)

/-- MODEL Rx, and the erase decision (41_session.md R207, R221). -/
def execRspMODEL (res : ReadResult) (s : State) : Out :=
  whenEnabled .model .recv s <| rx res s fun r s1 =>
    if valModel r (modelDigit s1.cfgModel) then
      if s1.cfgModel = .flash ∧ s1.cfgErase = true then .next { s1 with ph := .erase }
      else .next { s1 with ph := .fetch }
    else .next (abort .modelRejected .none s1)

/-- ERASE Rx (41_session.md R209). -/
def execRspERASED (res : ReadResult) (s : State) : Out :=
  whenEnabled .erase .recv s <| rx res s fun r s1 =>
    if valErased r then .next { s1 with ph := .fetch }
    else .next (abort .eraseFailed .none s1)

/-- WRITE Rx (41_session.md R212). -/
def execRspWRITED (res : ReadResult) (s : State) : Out :=
  whenEnabled .write .recv s <| rx res s fun r s1 =>
    if valWrited r then .next { s1 with ph := .readback }
    else .next (abort .writeRejected .none s1)

/-- The end of READBACK Rx for a verified chunk: the address advance (41_session.md R224), the progress report (R226),
and the next phase. -/
def advance (s : State) : State :=
  let s1 := setAddr (s.addr + s.clen.toNat) s
  let s2 := { s1 with progress := BitVec.ofNat 7 (progressPct s1.addr s1.fsize) }
  let s3 := emitProgress s2.progress s2
  { s3 with ph := .fetch }

/-- READBACK Rx: shape, verify, advance, in this order (41_session.md R214, 60_exceptions.md R267). -/
def execRspREADBACK (res : ReadResult) (s : State) : Out :=
  whenEnabled .readback .recv s <| rx res s fun r s1 =>
    if valRbShape s1.params r s1.clen.toNat then
      match currentChunk s1 with
      | .ok c =>
        if valRbVerify s1.params r (buildRef s1.cks s1.addr c) then .next (advance s1)
        else .next (abort .verifyMismatch .none s1)
      | .error f => .fault f
    else .next (abort .readbackShapeMismatch .none s1)

end Sys2Proof.Machine
end

