-- ==== Sys2Proof/Machine/Dispatch.lean ====
section
/-! DEFINITION. One arm per constructor of Instr. -/

namespace Sys2Proof.Machine
open Sys2Proof

def exec (i : Instr) (s : State) : Host.Outcome State Fault Refusal :=
  match i with
  | .reqH => Sys2Proof.Machine.execReqH s
  | .reqI => Sys2Proof.Machine.execReqI s
  | .reqM model => Sys2Proof.Machine.execReqM model s
  | .reqFES start count => Sys2Proof.Machine.execReqFES start count s
  | .reqW cks addr data => Sys2Proof.Machine.execReqW cks addr data s
  | .reqR addr len => Sys2Proof.Machine.execReqR addr len s
  | .rspHELLO res => Sys2Proof.Machine.execRspHELLO res s
  | .rspINFO res => Sys2Proof.Machine.execRspINFO res s
  | .rspMODEL res => Sys2Proof.Machine.execRspMODEL res s
  | .rspERASED res => Sys2Proof.Machine.execRspERASED res s
  | .rspWRITED res => Sys2Proof.Machine.execRspWRITED res s
  | .rspREADBACK res => Sys2Proof.Machine.execRspREADBACK res s

end Sys2Proof.Machine
end

