-- ==== Sys2Proof/WellFormed.lean ====
section
/-! DEFINITION. Which instructions have an encoding: the requests the engine emits (30_encoding.md R101 to R108,
R113) and the response shapes it accepts (R111, R112), each with what the rules fix of it without any register. -/

namespace Sys2Proof
open Sys2Proof.Machine

/-- A well-formed instruction. -/
def Instr.wellFormed (p : Params) : Instr → Bool
  | .reqH => true
  | .reqI => true
  | .reqM _ => true
  | .reqFES start count => start == 0 && decide (1 ≤ count) && decide (count ≤ 255)
  | .reqW _ addr data => decide (addr < 10 ^ 8) && decide (1 ≤ data.length) && decide (data.length ≤ p.chunkSize)
  | .reqR addr len => decide (addr < 10 ^ 8) && decide (1 ≤ len.toNat) && decide (len.toNat ≤ p.chunkSize)
  | .rspHELLO (.data r) => valHello r
  | .rspHELLO .ioError => false
  | .rspINFO (.data r) => valInfo r && decide (r.length ≤ p.maxRespI)
  | .rspINFO .ioError => false
  | .rspMODEL (.data r) => valModel r (modelDigit .eeprom) || valModel r (modelDigit .flash)
  | .rspMODEL .ioError => false
  | .rspERASED (.data r) => valErased r && decide (r.length ≤ p.maxRespFES)
  | .rspERASED .ioError => false
  | .rspWRITED (.data r) => valWrited r
  | .rspWRITED .ioError => false
  | .rspREADBACK (.data r) => isReadback p r
  | .rspREADBACK .ioError => false

end Sys2Proof
end

