-- ==== Sys2Proof/Decode.lean ====
section
/-! DEFINITION. The decoder of requests (30_encoding.md R109), the table's reading of a whole string (log 11), and
the encoder. Field values are recovered with `decodeFixed` (R108). -/

namespace Sys2Proof
open Sys2Proof.Machine

/-- Why a string is no instruction. -/
inductive DecodeError where
  /-- The string ends before the frame does. -/
  | truncated
  /-- The byte after `$` is no tag of R109, or `F` is not followed by `ES`. -/
  | unknownTag
  /-- A field holds a non-digit (40_codec.md R143). -/
  | malformedField
  /-- A field's value is outside its legal range (30_encoding.md R104 to R108, R113). -/
  | fieldRange
  /-- The frame does not end in `#` where its fields end. -/
  | noEnd
  /-- Bytes follow the frame. -/
  | trailing
  /-- The string is not a request and has no accepted response shape (30_encoding.md R111). -/
  | noShape
deriving DecidableEq, Repr

/-- A field of `w` digits, and the rest. -/
def takeField (w : Nat) (s : Bytes) : Except DecodeError (Nat × Bytes) :=
  if s.length < w then .error .truncated
  else match decodeFixed (s.take w) w with
    | some v => .ok (v, s.drop w)
    | none => .error .malformedField

/-- A field of 3 digits with a value 0..255, and the rest (30_encoding.md R108). -/
def takeByteField (s : Bytes) : Except DecodeError (Byte × Bytes) :=
  match takeField 3 s with
  | .ok (v, rest) => if v ≤ 255 then .ok (BitVec.ofNat 8 v, rest) else .error .fieldRange
  | .error e => .error e

/-- The closing `#` of a frame, and the rest. -/
def takeEnd (i : Instr) (s : Bytes) : Except DecodeError (Instr × Bytes) :=
  match s with
  | b :: rest => if b = chHash then .ok (i, rest) else .error .noEnd
  | [] => .error .truncated

/-- The data fields of a write request: 3 digits each. -/
def decodeData : Bytes → Except DecodeError Bytes
  | [] => .ok []
  | a :: b :: c :: rest =>
    match takeByteField [a, b, c] with
    | .ok (v, _) =>
      match decodeData rest with
      | .ok vs => .ok (v :: vs)
      | .error e => .error e
    | .error e => .error e
  | _ => .error .malformedField

/-- The fields of `M` after its tag (30_encoding.md R103). -/
def decodeM (s : Bytes) : Except DecodeError (Instr × Bytes) :=
  match s with
  | d :: rest =>
    if d = modelDigit .eeprom then takeEnd (.reqM .eeprom) rest
    else if d = modelDigit .flash then takeEnd (.reqM .flash) rest
    else if isDigit d then .error .fieldRange else .error .malformedField
  | [] => .error .truncated

/-- The fields of `FES` after its tag (30_encoding.md R104): start sector 0, count 1..255. -/
def decodeFES (s : Bytes) : Except DecodeError (Instr × Bytes) :=
  match takeByteField s with
  | .ok (start, s1) =>
    match takeByteField s1 with
    | .ok (count, s2) =>
      if start = 0 ∧ 1 ≤ count.toNat then takeEnd (.reqFES start count.toNat) s2 else .error .fieldRange
    | .error e => .error e
  | .error e => .error e

/-- The fields of `W` after its tag (30_encoding.md R105): the frame ends at the first `#` after offset 12, and no
field byte can be `#` (R109). -/
def decodeW (p : Params) (s : Bytes) : Except DecodeError (Instr × Bytes) :=
  match takeByteField s with
  | .ok (cks, s1) =>
    match takeField 8 s1 with
    | .ok (addr, s2) =>
      match decodeData (s2.takeWhile (· != chHash)) with
      | .ok data =>
        if 1 ≤ data.length ∧ data.length ≤ p.chunkSize
        then takeEnd (.reqW cks addr data) (s2.dropWhile (· != chHash))
        else .error .fieldRange
      | .error e => .error e
    | .error e => .error e
  | .error e => .error e

/-- The fields of `R` after its tag (30_encoding.md R106): length 1..CHUNK_SIZE. -/
def decodeR (p : Params) (s : Bytes) : Except DecodeError (Instr × Bytes) :=
  match takeField 8 s with
  | .ok (addr, s1) =>
    match takeByteField s1 with
    | .ok (len, s2) =>
      if 1 ≤ len.toNat ∧ len.toNat ≤ p.chunkSize then takeEnd (.reqR addr len) s2 else .error .fieldRange
    | .error e => .error e
  | .error e => .error e

/-- A request at the front of a string, and the bytes after it: byte 0 is `$`, byte 1 selects the format
(30_encoding.md R109). -/
def decodeRequest (p : Params) (s : Bytes) : Except DecodeError (Instr × Bytes) :=
  match s with
  | d :: t :: rest =>
    if d = chDollar then
      if t = chH then takeEnd .reqH rest
      else if t = chI then takeEnd .reqI rest
      else if t = chM then decodeM rest
      else if t = chF then
        match rest with
        | e :: s' :: rest' => if e = chE ∧ s' = chS then decodeFES rest' else .error .unknownTag
        | _ => .error .truncated
      else if t = chW then decodeW p rest
      else if t = chR then decodeR p rest
      else .error .unknownTag
    else .error .noShape
  | _ => .error .truncated

/-- A response read without a phase: the most exact row of 30_encoding.md R111 that it fits (log 11). -/
def decodeResponse (p : Params) (r : Bytes) : Except DecodeError Instr :=
  if valHello r then .ok (.rspHELLO (.data r))
  else if valWrited r then .ok (.rspWRITED (.data r))
  else if valModel r (modelDigit .eeprom) || valModel r (modelDigit .flash) then .ok (.rspMODEL (.data r))
  else if isReadback p r then .ok (.rspREADBACK (.data r))
  else if valErased r && decide (r.length ≤ p.maxRespFES) then .ok (.rspERASED (.data r))
  else if valInfo r && decide (r.length ≤ p.maxRespI) then .ok (.rspINFO (.data r))
  else .error .noShape

/-- A string starts as a request does. -/
def startsRequest (s : Bytes) : Bool := s.head? == some chDollar

/-- A whole string as one row of the opcode table: a string that starts with `$` is a request and nothing else
(log 11). -/
def decode (p : Params) (s : Bytes) : Except DecodeError Instr :=
  if startsRequest s then
    match decodeRequest p s with
    | .ok (i, []) => .ok i
    | .ok (_, _ :: _) => .error .trailing
    | .error e => .error e
  else decodeResponse p s

/-- The bytes of an instruction on the wire (30_encoding.md R101 to R106, R111). A failed read has none. -/
def encode : Instr → Bytes
  | .reqH => buildH
  | .reqI => buildI
  | .reqM model => buildM model
  | .reqFES start count => buildFES start (BitVec.ofNat 8 count)
  | .reqW cks addr data => buildW cks addr data
  | .reqR addr len => buildR addr len
  | .rspHELLO (.data r) => r
  | .rspHELLO .ioError => []
  | .rspINFO (.data r) => r
  | .rspINFO .ioError => []
  | .rspMODEL (.data r) => r
  | .rspMODEL .ioError => []
  | .rspERASED (.data r) => r
  | .rspERASED .ioError => []
  | .rspWRITED (.data r) => r
  | .rspWRITED .ioError => []
  | .rspREADBACK (.data r) => r
  | .rspREADBACK .ioError => []

/-- The bytes of a number, the lowest first: byte `k` is bits `8k+7..8k`. -/
def wordBytes (nbits w : Nat) : Bytes :=
  (List.range ((nbits + 7) / 8)).map fun k => BitVec.ofNat 8 (w / 2 ^ (8 * k))

/-- The instruction the decoder reads from an instruction whose bits are `w`, with the source's parameters. Bits a
request has above `nbits` are 0, so bytes of zero may follow it. -/
def decodeTableWord (nbits w : Nat) : Option Instr :=
  if startsRequest (wordBytes nbits w) then
    match decodeRequest Params.source (wordBytes nbits w) with
    | .ok (i, rest) => if rest.all (· == 0) then some i else none
    | .error _ => none
  else
    match decodeResponse Params.source (wordBytes nbits w) with
    | .ok i => some i
    | .error _ => none

end Sys2Proof
end

