-- ==== Sys2Proof/Machine/Select.lean ====
section
/-! DEFINITION. Which step is enabled (41_session.md R200), the bytes a transaction puts on the wire or takes from it,
and the placing of an instruction where the next step runs it. -/

namespace Sys2Proof.Machine
open Sys2Proof

/-- What `(ph, iop)` selects (41_session.md R200). -/
inductive Selection where
  /-- No engine step is enabled. -/
  | wait
  /-- The File read of FETCH. -/
  | fileRead
  /-- A transaction step: its instruction, and the state once a response has been read. -/
  | run (i : Instr) (s : State)
  /-- The model stops. -/
  | stop (f : Fault)

/-- An Rx step's `LinkRead` and its instruction (41_session.md R219). -/
def receive (m : Nat) (mk : ReadResult → Instr) (s : State) : Selection :=
  match linkRead m s with
  | (res, s1) => .run (mk res) s1

/-- A Tx step whose operands may not be readable. -/
def transmit (i : Except Fault Instr) (s : State) : Selection :=
  match i with
  | .ok i => .run i s
  | .error f => .stop f

/-- Step selection (41_session.md R200). -/
def select (s : State) : Selection :=
  match s.ph, s.iop with
  | .idle, .send => .wait
  | .handshake, .send => .run .reqH s
  | .handshake, .recv => receive s.params.maxRespH .rspHELLO s
  | .info, .send => .run .reqI s
  | .info, .recv => receive s.params.maxRespI .rspINFO s
  | .model, .send => .run (operandsM s) s
  | .model, .recv => receive s.params.maxRespM .rspMODEL s
  | .erase, .send => .run (operandsFES s) s
  | .erase, .recv => receive s.params.maxRespFES .rspERASED s
  | .fetch, .send => .fileRead
  | .write, .send => transmit (operandsW s) s
  | .write, .recv => receive s.params.maxRespW .rspWRITED s
  | .readback, .send => .run (operandsR s) s
  | .readback, .recv => receive s.params.maxRespR .rspREADBACK s
  | .done, .send => .wait
  | .aborted, .send => .wait
  | .refused, .send => .wait
  | .idle, .recv => .stop (.unreachablePhase .idle .recv)
  | .fetch, .recv => .stop (.unreachablePhase .fetch .recv)
  | .done, .recv => .stop (.unreachablePhase .done .recv)
  | .aborted, .recv => .stop (.unreachablePhase .aborted .recv)
  | .refused, .recv => .stop (.unreachablePhase .refused .recv)

/-- The phase of an instruction's step (41_session.md R200). -/
def phaseOf : Instr → Phase
  | .reqH => .handshake
  | .reqI => .info
  | .reqM _ => .model
  | .reqFES _ _ => .erase
  | .reqW _ _ _ => .write
  | .reqR _ _ => .readback
  | .rspHELLO _ => .handshake
  | .rspINFO _ => .info
  | .rspMODEL _ => .model
  | .rspERASED _ => .erase
  | .rspWRITED _ => .write
  | .rspREADBACK _ => .readback

/-- The sub-phase of an instruction's step: SEND for a request, RECV for a response (10_state.md R31). -/
def iopOf : Instr → IoPhase
  | .reqH => .send
  | .reqI => .send
  | .reqM _ => .send
  | .reqFES _ _ => .send
  | .reqW _ _ _ => .send
  | .reqR _ _ => .send
  | .rspHELLO _ => .recv
  | .rspINFO _ => .recv
  | .rspMODEL _ => .recv
  | .rspERASED _ => .recv
  | .rspWRITED _ => .recv
  | .rspREADBACK _ => .recv

/-- The instruction a string on the wire is in a given `(ph, iop)`: a request of that phase, or its response, which
any string is (20_memory.md R78). -/
def decodeAt (p : Params) (ph : Phase) (iop : IoPhase) (bs : Bytes) : Except DecodeError Instr :=
  match iop, ph with
  | .recv, .handshake => .ok (.rspHELLO (.data bs))
  | .recv, .info => .ok (.rspINFO (.data bs))
  | .recv, .model => .ok (.rspMODEL (.data bs))
  | .recv, .erase => .ok (.rspERASED (.data bs))
  | .recv, .write => .ok (.rspWRITED (.data bs))
  | .recv, .readback => .ok (.rspREADBACK (.data bs))
  | .recv, _ => .error .noShape
  | .send, _ =>
    match decodeRequest p bs with
    | .ok (i, []) => if phaseOf i = ph then .ok i else .error .unknownTag
    | .ok (_, _ :: _) => .error .trailing
    | .error e => .error e

/-- The bytes of the transaction `(ph, iop)` selects: the frame the engine sends, or the string the `LinkRead` returns.
`none` where there is no transaction, where the count of an erase has no frame (41_session.md R208), or where the read
fails. -/
def wireBytes (s : State) : Option Bytes :=
  match select s with
  | .run (.reqFES start count) _ => if 255 < count then none else some (encode (.reqFES start count))
  | .run (.rspHELLO .ioError) _ => none
  | .run (.rspINFO .ioError) _ => none
  | .run (.rspMODEL .ioError) _ => none
  | .run (.rspERASED .ioError) _ => none
  | .run (.rspWRITED .ioError) _ => none
  | .run (.rspREADBACK .ioError) _ => none
  | .run i _ => some (encode i)
  | .wait => none
  | .fileRead => none
  | .stop _ => none

/-- A state whose next step is the given `(ph, iop)`'s, with the Host silent. -/
def atPhase (ph : Phase) (iop : IoPhase) (s : State) : State :=
  { s with ph := ph, iop := iop, hostMoves := none :: s.hostMoves }

/-- A state whose next step is a Tx step of the phase, with a Link that takes the frame. -/
def atSend (ph : Phase) (s : State) : State :=
  { atPhase ph .send s with linkWrites := .ok :: s.linkWrites }

/-- A state whose next step is the Rx step of the phase, with the Link's next answer. -/
def atRecv (ph : Phase) (res : ReadResult) (s : State) : State :=
  { atPhase ph .recv s with linkReads := res :: s.linkReads }

/-- Places an instruction where the next step runs it: the phase that selects it, and the registers its operands are
built from (log 10). -/
def place (i : Instr) (s : State) : State :=
  match i with
  | .reqH => atSend .handshake s
  | .reqI => atSend .info s
  | .reqM model => { atSend .model s with cfgModel := model }
  | .reqFES _ count => { atSend .erase s with fsize := (count - 1) * s.params.sectorSize }
  | .reqW cks addr data =>
    { atSend .write s with
      cks := cks
      addr := addr
      clen := BitVec.ofNat 8 data.length
      chunk := memPutBytes [] 0 data }
  | .reqR addr len => { atSend .readback s with addr := addr, clen := len }
  | .rspHELLO res => atRecv .handshake res s
  | .rspINFO res => atRecv .info res s
  | .rspMODEL res => atRecv .model res s
  | .rspERASED res => atRecv .erase res s
  | .rspWRITED res => atRecv .write res s
  | .rspREADBACK res => atRecv .readback res s

/-- The instruction of the bits `w`, placed; a string that is no instruction changes nothing. -/
def placeWord (s : State) (nbits w : Nat) : State :=
  match decodeTableWord nbits w with
  | some i => place i s
  | none => s

end Sys2Proof.Machine
end

