-- ==== Sys2Proof/Machine/Session.lean ====
section
/-! DEFINITION. The steps that are no transaction of the opcode table: START (41_session.md R201), FETCH (R210), and the
Host's moves (10_state.md R50, 60_exceptions.md R266, 70_reset_and_hazards.md R302). -/

namespace Sys2Proof.Machine
open Sys2Proof

/-- START once `VARIANT` and the parameters are accepted and the configuration is loaded: the File's size and the
Link (41_session.md R201). -/
def startPorts (s : State) : State :=
  let (n, s1) := fileSize s
  if 2 ^ s1.params.fsizeW ≤ n then refuse .fileTooLarge s1
  else
    let (isOpen, s2) := linkIsOpen (setFsize n s1)
    if isOpen then { s2 with iop := .send, ph := .handshake }
    else abort .ioError .portNotOpen s2

/-- START (41_session.md R201); its checks in this order (60_exceptions.md R267). -/
def startSession (cfg : StartCfg) (s : State) : State :=
  if s.params.variant ≠ .canonical then refuse .variantLegacy s
  else if s.params.inRange = false then refuse .parameterIllegal s
  else
    startPorts (setAddr cfg.start
      { s with
        cfgWrite := cfg.write
        cfgErase := cfg.erase
        cfgModel := cfg.model
        cfgVariant := s.params.variant })

/-- FETCH after a non-empty `FileRead` of `c` (41_session.md R210). The bytes of `CHUNK` at and above `CLEN` have no
value afterwards (10_state.md R38, log 9). -/
def loadChunk (c : Bytes) (s : State) : Out :=
  memWrite { s with chunk := [] } .chunk 0 c fun s1 => .next
    { s1 with
      clen := BitVec.ofNat 8 c.length
      cks := checksum c
      ph := if s1.cfgWrite then .write else .readback }

/-- FETCH (41_session.md R210). -/
def fetchChunk (s : State) : Out :=
  let (c, s1) := fileRead s.params.chunkSize s
  if c.length = 0 then .next { s1 with ph := .done } else loadChunk c s1

/-- The Host's move at this step, and the schedule after it; none left is silence (log 5). -/
def hostTurn (s : State) : Option HostMove × State :=
  match s.hostMoves with
  | m :: ms => (m, { s with hostMoves := ms })
  | [] => (none, s)

/-- The phases of a session: from a START that succeeds to the end of the chunk loop. In these the Link and the File are
the session's, and in every other phase they are released to the Host (60_exceptions.md R283, log 6). -/
def isRunning : Phase → Bool
  | .handshake => true
  | .info => true
  | .model => true
  | .erase => true
  | .fetch => true
  | .write => true
  | .readback => true
  | .idle => false
  | .done => false
  | .aborted => false
  | .refused => false

/-- What a Host move does, `none` where the Host has no such move: `Terminate` is a move in every phase
(60_exceptions.md R266), `Start` only in `IDLE` (10_state.md R50), and the File and the Link are the Host's to open
while no session owns them (60_exceptions.md R283, 70_reset_and_hazards.md R302, log 6). -/
def hostEffect (m : HostMove) (s : State) : Option State :=
  match m with
  | .terminate => some (blockReset s)
  | .start cfg => if s.ph = .idle then some (startSession cfg s) else none
  | .openFile f pos => if isRunning s.ph = false then some { s with file := f, fcur := pos } else none
  | .openLink ok => if isRunning s.ph = false then some { s with linkOpen := ok } else none

end Sys2Proof.Machine
end

