-- ==== Sys2Proof/Machine/Step.lean ====
section
/-! DEFINITION. One step of the machine: the Host's move where it has one, else the engine's step
(41_session.md R200, 60_exceptions.md R266, R268). -/

namespace Sys2Proof.Machine
open Sys2Proof

/-- The engine's step (41_session.md R200). Where none is enabled the state stays as it is (log 7). -/
def engineStep (s : State) : Host.Outcome State Fault Refusal :=
  match select s with
  | .wait => .next s
  | .fileRead => fetchChunk s
  | .run i s1 => exec i s1
  | .stop f => .fault f

/-- One step: the schedule's entry is spent; where it is a move the Host has, it happens, else the engine steps. -/
def step (s : State) : Host.Outcome State Fault Refusal :=
  match hostTurn s with
  | (some m, s1) =>
    match hostEffect m s1 with
    | some s2 => .next s2
    | none => engineStep s1
  | (none, s1) => engineStep s1

/-- The state with the instruction of the bits `w` where the next step runs it (log 10). -/
def State.withFetchWord (s : State) (nbits w : Nat) : State :=
  placeWord s nbits w

end Sys2Proof.Machine
end

