-- ==== Sys2Proof/Machine/Status.lean ====
section
/-! DEFINITION. What the Host sees: the register codes (10_state.md R30, R31, R34, R43, R44, R47), the status port (R53,
60_exceptions.md R284), the diagnostic record (R273), the observation of a run (20_memory.md R86), and the exit status
(R286). Reading changes nothing. -/

namespace Sys2Proof.Machine
open Sys2Proof

/-- The 4-bit code of a phase (10_state.md R30). -/
def phaseCode : Phase → BitVec 4
  | .idle => 0
  | .handshake => 1
  | .info => 2
  | .model => 3
  | .erase => 4
  | .fetch => 5
  | .write => 6
  | .readback => 7
  | .done => 8
  | .aborted => 9
  | .refused => 10

/-- The bit of the I/O sub-phase (10_state.md R31). -/
def iopCode : IoPhase → BitVec 1
  | .send => 0
  | .recv => 1

/-- The 4-bit error code (10_state.md R43). -/
def errCode (e : ErrCode) : BitVec 4 := BitVec.ofNat 4 (errNumber e)

/-- The 2-bit sub-cause (10_state.md R44). -/
def ioCauseCode : IoCause → BitVec 2
  | .none => 0
  | .portNotOpen => 1
  | .linkWrite => 2
  | .linkRead => 3

/-- The 3-bit refusal reason (10_state.md R47). -/
def refuseCode : RefuseReason → BitVec 3
  | .none => 0
  | .variantLegacy => 1
  | .parameterIllegal => 2
  | .sectorCountOver255 => 3
  | .fileTooLarge => 4

/-- What the status port reads (10_state.md R53). A buffer reads as the bytes below its length register, `none` where
one has no value. -/
structure Status where
  ph : BitVec 4
  err : BitVec 4
  ioCause : BitVec 2
  rreason : BitVec 3
  info : Option Bytes
  infoLen : Nat
  progress : BitVec 7
  diagCmd : Option Bytes
  resp : Option Bytes
  diagExp : BitVec 16
  diagAct : BitVec 16
deriving DecidableEq, Repr

/-- The status port (10_state.md R53). -/
def statusPort (s : State) : Status where
  ph := phaseCode s.ph
  err := errCode s.err
  ioCause := ioCauseCode s.ioCause
  rreason := refuseCode s.rreason
  info := memGetBytes s.info 0 s.infoLen
  infoLen := s.infoLen
  progress := s.progress
  diagCmd := memGetBytes s.diagCmd 0 s.diagCmdLen
  resp := memGetBytes s.resp 0 s.respLen
  diagExp := s.diagExp
  diagAct := s.diagAct

/-- A terminal phase (10_state.md R30). -/
def isTerminal : Phase → Bool
  | .done => true
  | .aborted => true
  | .refused => true
  | .idle => false
  | .handshake => false
  | .info => false
  | .model => false
  | .erase => false
  | .fetch => false
  | .write => false
  | .readback => false

/-- The events of the history; `FileSize` and `LinkIsOpen` are port operations (41_session.md R225) but no events
(20_memory.md R86). -/
def isHistoryEvent : PortEvent → Bool
  | .tx _ => true
  | .txErr _ => true
  | .rx _ _ => true
  | .rxErr _ => true
  | .file _ _ => true
  | .progress _ => true
  | .fileSize _ => false
  | .linkIsOpen _ => false

/-- The observation of a run: its events, then the terminal phase where one is reached (20_memory.md R86). -/
def observation (s : State) : List PortEvent × Option Phase :=
  (s.trace.filter isHistoryEvent, if isTerminal s.ph then some s.ph else none)

/-- The process exit status of a phase: `DONE` 0, `ABORTED` -1; no other phase has one (60_exceptions.md R286). -/
def exitStatus : Phase → Option Int
  | .done => some 0
  | .aborted => some (-1)
  | .refused => none
  | .idle => none
  | .handshake => none
  | .info => none
  | .model => none
  | .erase => none
  | .fetch => none
  | .write => none
  | .readback => none

end Sys2Proof.Machine
end

