-- ==== Sys2Proof/Safety.lean ====
section
/-! DEFINITION. The terms in which claims speak of safe runs: the invariants of the block and of its File, the launch
premises, the port operations a step may make, the order of phases, and the bound on the steps of a session. -/

namespace Sys2Proof.Machine
open Sys2Proof

/-- The phases whose I/O sub-phase has a meaning (10_state.md R31). -/
def isTransaction : Phase → Bool
  | .handshake => true
  | .info => true
  | .model => true
  | .erase => true
  | .write => true
  | .readback => true
  | .idle => false
  | .fetch => false
  | .done => false
  | .aborted => false
  | .refused => false

/-- The invariant of the block: what the rules say of every state a run reaches. -/
structure Inv (s : State) : Prop where
  /-- The buffers are in canonical form. -/
  forms : ∀ b : Buffer, memWf (bufOf s b) = true
  /-- No byte lies outside its buffer (20_memory.md R73). -/
  bounds : ∀ b : Buffer, memBelow (capacity s.params b) (bufOf s b) = true
  /-- The length registers stay within their buffers and the bytes below them have values (10_state.md R41, R42,
  R46). -/
  held : (s.respLen ≤ s.params.maxRespR ∧ (memGetBytes s.resp 0 s.respLen).isSome = true) ∧
    (s.infoLen ≤ s.params.maxRespI ∧ (memGetBytes s.info 0 s.infoLen).isSome = true) ∧
    (s.diagCmdLen ≤ 14 + 3 * s.params.chunkSize ∧ (memGetBytes s.diagCmd 0 s.diagCmdLen).isSome = true)
  /-- The values of `ADDR` and `FSIZE` fit their widths (10_state.md R36, R37). -/
  widths : s.addr < 2 ^ s.params.addrW ∧ s.fsize < 2 ^ s.params.fsizeW
  /-- The legal values of `CLEN` (10_state.md R39). -/
  clenRange : s.clen.toNat ≤ s.params.chunkSize
  /-- `ERR ≠ NONE` exactly when `ph = ABORTED` (10_state.md R43). -/
  errIff : s.err ≠ .none ↔ s.ph = .aborted
  /-- `IOCAUSE` is 0 unless `ERR = IO_ERROR` (10_state.md R44). -/
  causeOnly : s.ioCause ≠ .none → s.err = .ioError
  /-- A refusal reason stands exactly in `REFUSED` (10_state.md R47). -/
  reasonIff : s.rreason ≠ .none ↔ s.ph = .refused
  /-- `iop` is 0 outside the six transaction phases (10_state.md R31). -/
  sendOutside : isTransaction s.ph = false → s.iop = .send
  /-- A session that Start accepted has legal parameters (41_session.md R201). -/
  accepted : s.ph ≠ .idle → s.ph ≠ .refused →
    s.params.variant = .canonical ∧ s.params.inRange = true ∧ s.cfgVariant = .canonical
  /-- `ERASE` is reached only for FLASH with erase enabled (41_session.md R208, R221). -/
  eraseGate : s.ph = .erase → s.cfgModel = .flash ∧ s.cfgErase = true
  /-- `WRITE` is reached only with writing enabled (41_session.md R211). -/
  writeGate : s.ph = .write → s.cfgWrite = true
  /-- In `WRITE` and `READBACK` a chunk of 1 byte or more is loaded, with its checksum (41_session.md R210). -/
  loaded : s.ph = .write ∨ s.ph = .readback →
    1 ≤ s.clen.toNat ∧ ∃ c, currentChunk s = .ok c ∧ s.cks = checksum c

/-- The invariant that ties the session to its File (10_state.md R54, 20_memory.md R75). It rests on the launch
premise `launched`. -/
structure FileInv (s : State) : Prop where
  /-- `FSIZE` is the File's length (10_state.md R37, 41_session.md R201). -/
  size : isRunning s.ph = true → s.fsize = s.file.length
  /-- The cursor stands at `ADDR` until a chunk is fetched (10_state.md R54). -/
  before : isRunning s.ph = true → s.ph ≠ .write → s.ph ≠ .readback → s.fcur = s.addr
  /-- After a FETCH the cursor stands at `ADDR + CLEN`, inside the File (10_state.md R54). -/
  after : s.ph = .write ∨ s.ph = .readback → s.fcur = s.addr + s.clen.toNat ∧ s.fcur ≤ s.file.length
  /-- The chunk is the `CLEN` bytes of the File at offset `ADDR` (20_memory.md R75). -/
  chunkIs : s.ph = .write ∨ s.ph = .readback →
    currentChunk s = .ok ((s.file.drop s.addr).take s.clen.toNat)
  /-- `PROGRESS` is a percentage (10_state.md R45). -/
  percent : s.progress.toNat ≤ 100

/-- The launch premise of a Start (70_reset_and_hazards.md R302, items 1 and 3): the start value fits `ADDR` and the
File's cursor stands at it. It speaks of the Host's move at this step only. -/
def launched (s : State) : Prop :=
  ∀ cfg, (hostTurn s).1 = some (.start cfg) → s.ph = .idle →
    cfg.start < 2 ^ s.params.addrW ∧ s.fcur = cfg.start

/-- The Host has no effect at this step: it is silent, or its move is none the block has in this phase
(10_state.md R50). -/
def hostQuiet (s : State) : Prop :=
  match (hostTurn s).1 with
  | none => True
  | some m => hostEffect m (hostTurn s).2 = none

/-- The read limit of a phase's response (30_encoding.md R111). -/
def readLimit (p : Params) : Phase → Nat
  | .handshake => p.maxRespH
  | .info => p.maxRespI
  | .model => p.maxRespM
  | .erase => p.maxRespFES
  | .write => p.maxRespW
  | .readback => p.maxRespR
  | .idle => 0
  | .fetch => 0
  | .done => 0
  | .aborted => 0
  | .refused => 0

/-- An Rx step is one `LinkRead` of at most `m` bytes, then the response on what it returned (41_session.md R219). -/
def StepReads (m : Nat) (mk : ReadResult → Instr) (s : State) : Prop :=
  hostQuiet s → step s = exec (mk (linkRead m (hostTurn s).2).1) (linkRead m (hostTurn s).2).2

/-- The phases an engine step may lead to from a phase (41_session.md R220, rule by rule R201 to R217). -/
def mayFollow : Phase → List Phase
  | .idle => [.idle]
  | .handshake => [.handshake, .info, .aborted]
  | .info => [.info, .model, .aborted]
  | .model => [.model, .erase, .fetch, .aborted]
  | .erase => [.erase, .fetch, .aborted, .refused]
  | .fetch => [.write, .readback, .done]
  | .write => [.write, .readback, .aborted]
  | .readback => [.readback, .fetch, .aborted]
  | .done => [.done]
  | .aborted => [.aborted]
  | .refused => [.refused]

/-- The chunks the File still holds from its cursor (41_session.md R223). -/
def chunksLeft (s : State) : Nat :=
  (s.file.length - s.fcur + (s.params.chunkSize - 1)) / s.params.chunkSize

/-- The engine steps a session has left at most, counted from the port trace (41_session.md R225,
70_reset_and_hazards.md R321). -/
def stepsLeft (s : State) : Nat :=
  match s.ph, s.iop with
  | .handshake, .send => 5 * chunksLeft s + 9
  | .handshake, .recv => 5 * chunksLeft s + 8
  | .info, .send => 5 * chunksLeft s + 7
  | .info, .recv => 5 * chunksLeft s + 6
  | .model, .send => 5 * chunksLeft s + 5
  | .model, .recv => 5 * chunksLeft s + 4
  | .erase, .send => 5 * chunksLeft s + 3
  | .erase, .recv => 5 * chunksLeft s + 2
  | .fetch, _ => 5 * chunksLeft s + 1
  | .write, .send => 5 * chunksLeft s + 5
  | .write, .recv => 5 * chunksLeft s + 4
  | .readback, .send => 5 * chunksLeft s + 3
  | .readback, .recv => 5 * chunksLeft s + 2
  | .idle, _ => 0
  | .done, _ => 0
  | .aborted, _ => 0
  | .refused, _ => 0

/-! ## The requests' table -/

/-- The tag of a request (30_encoding.md R101 to R106). -/
def tagOf : Instr → Bytes
  | .reqH => [chH]
  | .reqI => [chI]
  | .reqM _ => [chM]
  | .reqFES _ _ => [chF, chE, chS]
  | .reqW _ _ _ => [chW]
  | .reqR _ _ => [chR]
  | .rspHELLO _ => []
  | .rspINFO _ => []
  | .rspMODEL _ => []
  | .rspERASED _ => []
  | .rspWRITED _ => []
  | .rspREADBACK _ => []

/-- The length table of the requests (30_encoding.md R107). -/
def tableLength : Instr → Nat
  | .reqH => 3
  | .reqI => 3
  | .reqM _ => 4
  | .reqFES _ _ => 11
  | .reqW _ _ data => 14 + 3 * data.length
  | .reqR _ _ => 14
  | .rspHELLO _ => 0
  | .rspINFO _ => 0
  | .rspMODEL _ => 0
  | .rspERASED _ => 0
  | .rspWRITED _ => 0
  | .rspREADBACK _ => 0

/-! ## The states a step leaves, written out -/

/-- The values 70_reset_and_hazards.md R300 names. -/
def HoldsResetValues (t : State) : Prop :=
  t.ph = .idle ∧ t.iop = .send ∧ t.err = .none ∧ t.ioCause = .none ∧ t.rreason = .none ∧ t.respLen = 0 ∧
    t.infoLen = 0 ∧ t.diagCmdLen = 0 ∧ t.progress = 0 ∧ t.diagExp = 0 ∧ t.diagAct = 0 ∧
    ∀ (b : Buffer) (a : Nat), memGet (bufOf t b) a = none

/-- After a request whose frame `f` the Link took, from the state `s` in which the Link has answered
(41_session.md R218). -/
def frameSent (f : Bytes) (s : State) : State :=
  { s with
    diagCmd := memPutBytes s.diagCmd 0 f
    diagCmdLen := f.length
    trace := s.trace ++ [.tx f]
    iop := .recv }

/-- After an abort with the given record (60_exceptions.md R270). -/
def abortedWith (code : ErrCode) (cause : IoCause) (exp act : BitVec 16) (s : State) : State :=
  { s with err := code, ioCause := cause, diagExp := exp, diagAct := act, iop := .send, ph := .aborted }

/-- After a request whose frame `f` the Link did not take, from the state `s` in which the Link has answered
(41_session.md R218, 60_exceptions.md R261, R262). -/
def frameFailed (f : Bytes) (s : State) : State :=
  abortedWith .ioError .linkWrite 0 0
    { s with
      diagCmd := memPutBytes s.diagCmd 0 f
      diagCmdLen := f.length
      trace := s.trace ++ [.txErr f] }

/-- Once a response stands in `RESP` and `iop` is back at SEND (41_session.md R219). -/
def received (r : Bytes) (s : State) : State :=
  { s with iop := .send, resp := memPutBytes s.resp 0 r, respLen := r.length }

/-- After a response whose read failed (41_session.md R219, 60_exceptions.md R261, R262). -/
def readFailed (s : State) : State :=
  abortedWith .ioError .linkRead 0 0 { s with respLen := 0 }

/-- After a response `r` that a validator rejects: the code, and the expected length of the table
(60_exceptions.md R261, R270). -/
def rejected (code : ErrCode) (exp : Nat) (r : Bytes) (s : State) : State :=
  abortedWith code .none (BitVec.ofNat 16 exp) (BitVec.ofNat 16 r.length) (received r s)

/-- The File's next bytes: what FETCH reads (10_state.md R52, 41_session.md R210). -/
def nextBytes (s : State) : Bytes := (s.file.drop s.fcur).take s.params.chunkSize

/-- The port operations a step has added to the record. -/
def newEvents (s t : State) : List PortEvent := t.trace.drop s.trace.length

/-! ## A whole session -/

/-- The chunks of a File from an address on, with their addresses, at most `n` of them (41_session.md R223). -/
def chunksFrom (size : Nat) (f : Bytes) : Nat → Nat → List (Nat × Bytes)
  | 0, _ => []
  | n + 1, a =>
    if f.length ≤ a then []
    else (a, (f.drop a).take size) :: chunksFrom size f n (a + ((f.drop a).take size).length)

/-- The chunks of a session (41_session.md R223). -/
def sessionChunks (p : Params) (f : Bytes) (start : Nat) : List (Nat × Bytes) :=
  chunksFrom p.chunkSize f f.length start

/-- Whether a session erases (41_session.md R221). -/
def erases (cfg : StartCfg) : Bool := cfg.model == .flash && cfg.erase

/-- A read-back response with the header `hdr`, the trailer `t` and the payload of a chunk (30_encoding.md R112). -/
def readbackOf (hdr : Bytes) (t : Byte) (a : Nat) (c : Bytes) : Bytes :=
  hdr ++ buildRef (checksum c) a c ++ [t]

/-- What a device answers that lets a session reach `DONE` (70_reset_and_hazards.md R304): `info` to the info request,
`m` after the model digit, `er` to the erase, `hdr` and `t` around each payload. -/
def goodReplies (p : Params) (cfg : StartCfg) (f info er hdr : Bytes) (m t : Byte) : List ReadResult :=
  [.data strHello, .data info, .data [modelDigit cfg.model, m]] ++
  (if erases cfg then [.data er] else []) ++
  (sessionChunks p f cfg.start).flatMap fun ac =>
    (if cfg.write then [.data strWrited] else []) ++ [.data (readbackOf hdr t ac.1 ac.2)]

/-- The port trace of such a session (41_session.md R225), with the progress after each chunk (R226). -/
def goodTrace (p : Params) (cfg : StartCfg) (f info er hdr : Bytes) (m t : Byte) : List PortEvent :=
  [.fileSize f.length, .linkIsOpen true,
    .tx buildH, .rx p.maxRespH strHello, .tx buildI, .rx p.maxRespI info,
    .tx (buildM cfg.model), .rx p.maxRespM [modelDigit cfg.model, m]] ++
  (if erases cfg then
    [.tx (buildFES 0 (BitVec.ofNat 8 (f.length / 4096 + 1))), .rx p.maxRespFES er] else []) ++
  ((sessionChunks p f cfg.start).flatMap fun ac =>
    [.file p.chunkSize ac.2] ++
    (if cfg.write then [.tx (buildW (checksum ac.2) ac.1 ac.2), .rx p.maxRespW strWrited] else []) ++
    [.tx (buildR ac.1 (BitVec.ofNat 8 ac.2.length)), .rx p.maxRespR (readbackOf hdr t ac.1 ac.2),
      .progress (BitVec.ofNat 7 ((ac.1 + ac.2.length) * 100 / f.length))]) ++
  [.file p.chunkSize []]

/-- A launched machine: reset, the File and the Link open, the cursor at the start value, a Link that takes every frame,
a device that gives the replies, and the Host's Start as its one move (70_reset_and_hazards.md R302). -/
def launchState (p : Params) (cfg : StartCfg) (f : Bytes) (replies : List ReadResult) : State :=
  { State.reset with
    params := p
    hostMoves := [some (.start cfg)]
    linkOpen := true
    linkWrites := List.replicate (2 * f.length + 4) .ok
    linkReads := replies
    file := f
    fcur := cfg.start }

end Sys2Proof.Machine
end

