-- ==== Sys2Proof/Certificates/Slice0/Obligations.lean ====
section
/-! DEFINITION. The statements for the provers. A statement about a step of the engine has the premise `hostQuiet`
(the Host has no effect at this step); the state it speaks of is then `(hostTurn s).2`, the state with the schedule's
entry spent. -/

open Sys2Proof Sys2Proof.Machine

/-! ## Codec -/

/-- 40_codec.md R140: the checksum is the sum mod 256, and the order of the bytes does not matter. -/
def Obligations.ChecksumIsTheSumMod256 : Prop :=
  (∀ c : Bytes, (checksum c).toNat = (c.map BitVec.toNat).sum % 256) ∧
  ∀ c d : Bytes, c.Perm d → checksum c = checksum d

/-- 40_codec.md R142: eight digits of `v`, the leading ones lost, the same as for `v mod 10^8`. -/
def Obligations.AddressFieldDropsLeadingDigits : Prop :=
  ∀ v : Nat, (encodeFixed8Digit v).length = 8 ∧
    (∀ k < 8, ((encodeFixed8Digit v).getD k 0).toNat = 0x30 + v / 10 ^ (7 - k) % 10) ∧
    encodeFixed8Digit v = encodeFixed8Digit (v % 10 ^ 8)

/-- 40_codec.md R143: the verdict, the value, and the two round trips; and what a user of `decodeFixed` does on the
verdict (60_exceptions.md R263). -/
def Obligations.DecodeFixedGivesValueOrVerdict : Prop :=
  (∀ (s : Bytes) (w : Nat), decodeFixed s w = none ↔ s.length ≠ w ∨ ∃ b ∈ s, b.toNat < 0x30 ∨ 0x39 < b.toNat) ∧
  (∀ (s : Bytes) (w n : Nat), decodeFixed s w = some n →
    n = ∑ k ∈ Finset.range w, ((s.getD k 0).toNat - 0x30) * 10 ^ (w - 1 - k)) ∧
  (∀ v : Byte, decodeFixed (encodeByte v) 3 = some v.toNat) ∧
  (∀ v : Nat, v < 10 ^ 8 → decodeFixed (encodeFixed8Digit v) 8 = some v) ∧
  (∀ (f : Bytes) (w : Nat) (s : State) (k : Nat → Out), decodeFixed f w = none →
    ∃ exp act, withField f w s k = .next (abortedWith .malformedField .none exp act s))

/-- 40_codec.md R156: the reference string is the write frame without its first 2 bytes and its last, of length
`11 + 3n`. -/
def Obligations.ReferenceIsTheWriteFrameStripped : Prop :=
  ∀ (cks : Byte) (addr : Nat) (data : Bytes),
    buildRef cks addr data = ((buildW cks addr data).drop 2).dropLast ∧
    (buildRef cks addr data).length = 11 + 3 * data.length

/-- 40_codec.md R163: accepted exactly where `ERASED` stands somewhere in the response. -/
def Obligations.EraseResponseIsASubstringTest : Prop :=
  ∀ r : Bytes, valErased r = true ↔ ∃ a b : Bytes, r = a ++ strErased ++ b

/-- 40_codec.md R165, R166, 30_encoding.md R112: with the legal parameters, a read-back response passes both checks
exactly where it is any 6 bytes, the reference string, and any last byte. -/
def Obligations.ReadbackChecksIgnoreHeaderAndTrailer : Prop :=
  ∀ (p : Params) (cks : Byte) (addr : Nat) (data r : Bytes), p.inRange = true →
    ((valRbShape p r data.length = true ∧ valRbVerify p r (buildRef cks addr data) = true) ↔
      ∃ (h : Bytes) (t : Byte), h.length = 6 ∧ r = h ++ buildRef cks addr data ++ [t])

/-! ## Encoding -/

/-- 30_encoding.md R100, R107: every request is `$`, its tag, digits, and `#`; it holds one `$` and one `#`; its length is
the table's. -/
def Obligations.RequestFramesHaveTheFrameStructure : Prop :=
  ∀ (p : Params) (i : Instr), i.wellFormed p = true → iopOf i = .send →
    (∃ fields : Bytes, fields.all isDigit = true ∧ encode i = [chDollar] ++ tagOf i ++ fields ++ [chHash]) ∧
    (encode i).count chDollar = 1 ∧ (encode i).count chHash = 1 ∧ (encode i).length = tableLength i

/-- Decoding the encoding of a well-formed instruction gives it back: in its own `(ph, iop)`, and for a request in
front of any further bytes. -/
def Obligations.DecodeInvertsEncode : Prop :=
  ∀ (p : Params) (i : Instr), i.wellFormed p = true →
    decodeAt p (phaseOf i) (iopOf i) (encode i) = .ok i ∧
    (iopOf i = .send → ∀ rest : Bytes, decodeRequest p (encode i ++ rest) = .ok (i, rest))

/-- Whatever the decoder reads is well-formed, and its encoding is the string that was read: no two strings are one
request, and no bit of a string is dropped. The model's choice in two points: that a request with a field value the engine
never sends is refused (log 19; 30_encoding.md R113 speaks only of what the engine emits), and what a string read without
a phase is, which the second clause speaks of (log 11). -/
def Obligations.DecodedStringsAreEncodings : Prop :=
  (∀ (p : Params) (s rest : Bytes) (i : Instr), decodeRequest p s = .ok (i, rest) →
    i.wellFormed p = true ∧ iopOf i = .send ∧ encode i ++ rest = s) ∧
  (∀ (p : Params) (s : Bytes) (i : Instr), decode p s = .ok i → i.wellFormed p = true ∧ encode i = s)

/-- A few words written out byte by byte from 30_encoding.md R101 to R106 and R111 decode to what they stand for. The
model's choice in two points: that the two responses, read without a phase, are these rows and no info text (log 11; R111
tells responses apart by the phase alone), and how a number stands for a string (log 10). -/
def Obligations.WrittenOutWordsDecode : Prop :=
  decodeTableWord 24 0x234824 = some .reqH ∧
  decodeTableWord 24 0x234924 = some .reqI ∧
  decodeTableWord 32 0x23314D24 = some (.reqM .flash) ∧
  decodeTableWord 88 0x2331303030303053454624 = some (.reqFES 0 1) ∧
  decodeTableWord 112 0x2333303030303030303030305224 = some (.reqR 0 3) ∧
  decodeTableWord 48 0x0A4F4C4C4548 = some (.rspHELLO (.data strHello)) ∧
  decodeTableWord 56 0x0A444554495257 = some (.rspWRITED (.data strWrited))

/-! ## Buffers -/

/-- A string that `MemWrite` put into a buffer reads back with `MemRead`; every other byte of the buffer and every other
buffer keep what they held (00_scope.md R11). -/
def Obligations.WrittenBytesReadBackAndTheRestStay : Prop :=
  ∀ (s t : State) (b : Buffer) (i : Nat) (v : Bytes), memWrite s b i v (fun s1 => .next s1) = .next t →
    memRead t b i v.length = .ok v ∧
    (∀ a, a < i ∨ i + v.length ≤ a → memGet (bufOf t b) a = memGet (bufOf s b) a) ∧
    (∀ b', b' ≠ b → bufOf t b' = bufOf s b')

/-! ## Reset, Terminate, Start -/

/-- 70_reset_and_hazards.md R300, 60_exceptions.md R266: the reset state holds the values R300 names; a `Terminate`, in
any state, gives a state that holds them, in one step and without a port operation. (What the registers without a
reset value hold is the model's choice, log 1, and is not spoken of.) -/
def Obligations.ResetAndTerminateGiveTheResetValues : Prop :=
  HoldsResetValues State.reset ∧
  ∀ s : State, (hostTurn s).1 = some .terminate →
    ∃ t, step s = .next t ∧ HoldsResetValues t ∧ t.trace = s.trace

/-- 41_session.md R201, 60_exceptions.md R267: what a Start does in `IDLE`, check by check. -/
def Obligations.StartFollowsItsChecksInOrder : Prop :=
  ∀ (s : State) (cfg : StartCfg) (ms : List (Option HostMove)),
    s.hostMoves = some (.start cfg) :: ms → s.ph = .idle → s.iop = .send →
    let s0 : State := { s with hostMoves := ms }
    let s1 : State := { s0 with
      cfgWrite := cfg.write, cfgErase := cfg.erase, cfgModel := cfg.model, cfgVariant := .canonical,
      addr := cfg.start % 2 ^ s.params.addrW, trace := s.trace ++ [.fileSize s.file.length] }
    let s2 : State := { s1 with
      fsize := s.file.length, trace := s.trace ++ [.fileSize s.file.length, .linkIsOpen s.linkOpen] }
    (s.params.variant = .legacy → step s = .next { s0 with rreason := .variantLegacy, ph := .refused }) ∧
    (s.params.variant = .canonical → s.params.inRange = false →
      step s = .next { s0 with rreason := .parameterIllegal, ph := .refused }) ∧
    (s.params.variant = .canonical → s.params.inRange = true → 2 ^ s.params.fsizeW ≤ s.file.length →
      step s = .next { s1 with rreason := .fileTooLarge, ph := .refused }) ∧
    (s.params.variant = .canonical → s.params.inRange = true → s.file.length < 2 ^ s.params.fsizeW →
      s.linkOpen = false → step s = .next (abortedWith .ioError .portNotOpen 0 0 s2)) ∧
    (s.params.variant = .canonical → s.params.inRange = true → s.file.length < 2 ^ s.params.fsizeW →
      s.linkOpen = true → step s = .next { s2 with ph := .handshake })

/-- The configuration registers, `FSIZE` and the parameters are read-only from a Start on: only a Host move changes them
(10_state.md R32 to R37). The File is the session's for its duration (60_exceptions.md R283). -/
def Obligations.ConfigurationIsReadOnlyAfterStart : Prop :=
  ∀ s t : State, step s = .next t → s.ph ≠ .idle → (hostTurn s).1 ≠ some .terminate →
    t.params = s.params ∧ t.cfgWrite = s.cfgWrite ∧ t.cfgErase = s.cfgErase ∧ t.cfgModel = s.cfgModel ∧
    t.cfgVariant = s.cfgVariant ∧ t.fsize = s.fsize ∧ (isRunning s.ph = true → t.file = s.file)

/-! ## Requests -/

/-- 41_session.md R218, the Link taking the frame (`drawWrite` is its next answer, and the state once it is given): in
its phase every request leaves its frame in `DIAG_CMD`, hands it over whole, and awaits the response. A write request has
the chunk's length at most; an erase request a count that a byte holds. -/
def Obligations.RequestsHandTheirFrameOver : Prop :=
  ∀ s t : State, s.iop = .send → drawWrite s = (.ok, t) →
    (s.ph = .handshake → exec .reqH s = .next (frameSent buildH t)) ∧
    (s.ph = .info → exec .reqI s = .next (frameSent buildI t)) ∧
    (∀ model, s.ph = .model → exec (.reqM model) s = .next (frameSent (buildM model) t)) ∧
    (∀ start count, s.ph = .erase → count ≤ 255 →
      exec (.reqFES start count) s = .next (frameSent (buildFES start (BitVec.ofNat 8 count)) t)) ∧
    (∀ cks addr data, s.ph = .write → data.length ≤ s.params.chunkSize →
      exec (.reqW cks addr data) s = .next (frameSent (buildW cks addr data) t)) ∧
    (∀ addr len, s.ph = .readback → exec (.reqR addr len) s = .next (frameSent (buildR addr len) t))

/-- 41_session.md R218, the Link failing: every request aborts with `IO_ERROR` and `LINK_WRITE`, its frame in
`DIAG_CMD`. -/
def Obligations.FailedFramesAbort : Prop :=
  ∀ s t : State, s.iop = .send → drawWrite s = (.ioError, t) →
    (s.ph = .handshake → exec .reqH s = .next (frameFailed buildH t)) ∧
    (s.ph = .info → exec .reqI s = .next (frameFailed buildI t)) ∧
    (∀ model, s.ph = .model → exec (.reqM model) s = .next (frameFailed (buildM model) t)) ∧
    (∀ start count, s.ph = .erase → count ≤ 255 →
      exec (.reqFES start count) s = .next (frameFailed (buildFES start (BitVec.ofNat 8 count)) t)) ∧
    (∀ cks addr data, s.ph = .write → data.length ≤ s.params.chunkSize →
      exec (.reqW cks addr data) s = .next (frameFailed (buildW cks addr data) t)) ∧
    (∀ addr len, s.ph = .readback → exec (.reqR addr len) s = .next (frameFailed (buildR addr len) t))

/-- 41_session.md R202, R204, R206, R211, R213: the frame the engine sends in each phase is built from its registers,
whole: `ADDR` may be above 8 digits. `w` is the Link's answer. -/
def Obligations.EngineBuildsFramesFromItsRegisters : Prop :=
  ∀ (s t : State) (w : WriteResult),
    hostQuiet s → s.iop = .send → drawWrite (hostTurn s).2 = (w, t) →
    let after := fun f => if w = .ok then frameSent f t else frameFailed f t
    (s.ph = .handshake → step s = .next (after buildH)) ∧
    (s.ph = .info → step s = .next (after buildI)) ∧
    (s.ph = .model → step s = .next (after (buildM s.cfgModel))) ∧
    (∀ c, s.ph = .write → currentChunk s = .ok c → step s = .next (after (buildW s.cks s.addr c))) ∧
    (s.ph = .readback → step s = .next (after (buildR s.addr s.clen)))

/-- 41_session.md R208: the count is `FSIZE / 4096 + 1`; above 255 the step refuses with no port operation, else it sends
the erase of that many sectors from sector 0. -/
def Obligations.EraseCountAbove255IsRefused : Prop :=
  ∀ (s t : State) (w : WriteResult),
    hostQuiet s → s.ph = .erase → s.iop = .send → s.params.inRange = true → drawWrite (hostTurn s).2 = (w, t) →
    let f := buildFES 0 (BitVec.ofNat 8 (s.fsize / 4096 + 1))
    (1044480 ≤ s.fsize → step s = .next { (hostTurn s).2 with rreason := .sectorCountOver255, ph := .refused }) ∧
    (s.fsize < 1044480 → step s = .next (if w = .ok then frameSent f t else frameFailed f t))

/-- The frame of the requests: a request that answers a next state stores its encoding in `DIAG_CMD` from 0 (nothing,
where it is refused) and touches of the block only `DIAG_CMD_LEN`, `iop`, `ph`, and on an abort or a refusal the error
and reason registers; of the rest only the Link's answers and the record. -/
def Obligations.RequestsTouchOnlyTheirFrame : Prop :=
  ∀ (i : Instr) (s t : State), iopOf i = .send → exec i s = .next t →
    (∀ a, (encode i).length ≤ a → memGet t.diagCmd a = memGet s.diagCmd a) ∧
    (∀ b a, b ≠ .diagCmd → memGet (bufOf t b) a = memGet (bufOf s b) a) ∧
    t.params = s.params ∧ t.cfgWrite = s.cfgWrite ∧ t.cfgErase = s.cfgErase ∧ t.cfgModel = s.cfgModel ∧
    t.cfgVariant = s.cfgVariant ∧ t.addr = s.addr ∧ t.fsize = s.fsize ∧ t.clen = s.clen ∧ t.cks = s.cks ∧
    t.respLen = s.respLen ∧ t.infoLen = s.infoLen ∧ t.progress = s.progress ∧
    (t.ph ≠ .aborted → t.err = s.err ∧ t.ioCause = s.ioCause ∧ t.diagExp = s.diagExp ∧ t.diagAct = s.diagAct) ∧
    (t.ph ≠ .refused → t.rreason = s.rreason) ∧
    (t.ph = .refused → t.diagCmd = s.diagCmd ∧ t.diagCmdLen = s.diagCmdLen ∧ t.iop = s.iop ∧ t.trace = s.trace) ∧
    t.hostMoves = s.hostMoves ∧ t.linkOpen = s.linkOpen ∧ t.linkReads = s.linkReads ∧ t.file = s.file ∧
    t.fcur = s.fcur

/-! ## Responses -/

/-- 41_session.md R203: HANDSHAKE Rx on every result of the read, and the read itself. -/
def Obligations.HandshakeResponse : Prop :=
  ∀ (s : State), s.ph = .handshake → s.iop = .recv →
    exec (.rspHELLO .ioError) s = .next (readFailed s) ∧
    StepReads s.params.maxRespH .rspHELLO s ∧
    ∀ r : Bytes, r.length ≤ s.params.maxRespR →
      (r = strHello → exec (.rspHELLO (.data r)) s = .next { received r s with ph := .info }) ∧
      (r ≠ strHello → exec (.rspHELLO (.data r)) s = .next (rejected .handshakeFailed 6 r s))

/-- 41_session.md R205: INFO Rx on every result of the read, and the read itself; a non-empty text is kept verbatim in
`INFO`. -/
def Obligations.InfoResponse : Prop :=
  ∀ (s : State), s.ph = .info → s.iop = .recv →
    exec (.rspINFO .ioError) s = .next (readFailed s) ∧
    StepReads s.params.maxRespI .rspINFO s ∧
    ∀ r : Bytes, r.length ≤ s.params.maxRespR → r.length ≤ s.params.maxRespI →
      (r ≠ [] → exec (.rspINFO (.data r)) s = .next
        { received r s with info := memPutBytes s.info 0 r, infoLen := r.length, ph := .model }) ∧
      (r = [] → exec (.rspINFO (.data r)) s = .next (rejected .noInfoResponse 0 r s))

/-- 41_session.md R207, R221: MODEL Rx on every result of the read, the read itself, and the erase decision. -/
def Obligations.ModelResponse : Prop :=
  ∀ (s : State), s.ph = .model → s.iop = .recv →
    exec (.rspMODEL .ioError) s = .next (readFailed s) ∧
    StepReads s.params.maxRespM .rspMODEL s ∧
    ∀ r : Bytes, r.length ≤ s.params.maxRespR →
      ((∃ b, r = [modelDigit s.cfgModel, b]) → s.cfgModel = .flash ∧ s.cfgErase = true →
        exec (.rspMODEL (.data r)) s = .next { received r s with ph := .erase }) ∧
      ((∃ b, r = [modelDigit s.cfgModel, b]) → ¬ (s.cfgModel = .flash ∧ s.cfgErase = true) →
        exec (.rspMODEL (.data r)) s = .next { received r s with ph := .fetch }) ∧
      ((¬ ∃ b, r = [modelDigit s.cfgModel, b]) →
        exec (.rspMODEL (.data r)) s = .next (rejected .modelRejected 2 r s))

/-- 41_session.md R209: ERASE Rx on every result of the read, and the read itself. -/
def Obligations.EraseResponse : Prop :=
  ∀ (s : State), s.ph = .erase → s.iop = .recv →
    exec (.rspERASED .ioError) s = .next (readFailed s) ∧
    StepReads s.params.maxRespFES .rspERASED s ∧
    ∀ r : Bytes, r.length ≤ s.params.maxRespR →
      ((∃ a b : Bytes, r = a ++ strErased ++ b) →
        exec (.rspERASED (.data r)) s = .next { received r s with ph := .fetch }) ∧
      ((¬ ∃ a b : Bytes, r = a ++ strErased ++ b) →
        exec (.rspERASED (.data r)) s = .next (rejected .eraseFailed 0 r s))

/-- 41_session.md R212: WRITE Rx on every result of the read, and the read itself. -/
def Obligations.WriteResponse : Prop :=
  ∀ (s : State), s.ph = .write → s.iop = .recv →
    exec (.rspWRITED .ioError) s = .next (readFailed s) ∧
    StepReads s.params.maxRespW .rspWRITED s ∧
    ∀ r : Bytes, r.length ≤ s.params.maxRespR →
      (r = strWrited → exec (.rspWRITED (.data r)) s = .next { received r s with ph := .readback }) ∧
      (r ≠ strWrited → exec (.rspWRITED (.data r)) s = .next (rejected .writeRejected 7 r s))

/-- 41_session.md R214, R224, R226: READBACK Rx on every result of the read, and the read itself, with the legal parameters
and the chunk `c` in `CHUNK`: the length first, then the payload, then the address advance and the progress report. For `FSIZE = 0`, where
40_codec.md R159 gives no percentage, the progress is some value and all else is as said. -/
def Obligations.ReadbackResponse : Prop :=
  ∀ (s : State) (c : Bytes), s.ph = .readback → s.iop = .recv → s.params.inRange = true → currentChunk s = .ok c →
    exec (.rspREADBACK .ioError) s = .next (readFailed s) ∧
    StepReads s.params.maxRespR .rspREADBACK s ∧
    ∀ r : Bytes, r.length ≤ s.params.maxRespR →
      (r.length ≠ 18 + 3 * s.clen.toNat →
        exec (.rspREADBACK (.data r)) s = .next (rejected .readbackShapeMismatch (18 + 3 * s.clen.toNat) r s)) ∧
      (r.length = 18 + 3 * s.clen.toNat → (r.drop 6).dropLast ≠ buildRef s.cks s.addr c →
        exec (.rspREADBACK (.data r)) s = .next (rejected .verifyMismatch (18 + 3 * s.clen.toNat) r s)) ∧
      (r.length = 18 + 3 * s.clen.toNat → (r.drop 6).dropLast = buildRef s.cks s.addr c →
        let a := (s.addr + s.clen.toNat) % 2 ^ s.params.addrW
        ∃ p : BitVec 7, (s.fsize ≠ 0 → p = BitVec.ofNat 7 (a * 100 / s.fsize)) ∧
          exec (.rspREADBACK (.data r)) s = .next
            { received r s with addr := a, progress := p, trace := s.trace ++ [.progress p], ph := .fetch })

/-- 60_exceptions.md R270, R261: abort entry records the code, the sub-cause, and the expected and actual lengths of the
table, ends the transaction, enters `ABORTED`, and leaves every other register, buffer and the record as they are. The
codes `NONE` and `MALFORMED_FIELD` have no expected length in the table: some value. -/
def Obligations.AbortEntryRecordsTheCause : Prop :=
  ∀ (code : ErrCode) (cause : IoCause) (s : State), ∃ exp : BitVec 16,
    abort code cause s =
      abortedWith code cause exp (if code = .ioError then 0 else BitVec.ofNat 16 s.respLen) s ∧
    (code = .handshakeFailed → exp = 6) ∧ (code = .noInfoResponse → exp = 0) ∧ (code = .modelRejected → exp = 2) ∧
    (code = .eraseFailed → exp = 0) ∧ (code = .writeRejected → exp = 7) ∧ (code = .ioError → exp = 0) ∧
    (code = .readbackShapeMismatch ∨ code = .verifyMismatch → s.params.inRange = true →
      exp = BitVec.ofNat 16 (18 + 3 * s.clen.toNat))

/-- Strings that do not fit their buffer, and an operand that is not readable, stop by name (the model's choice, log 2,
log 13; under the premises of `NoStepFromTheInvariantStops` a step never does so). -/
def Obligations.StringsThatDoNotFitStop : Prop :=
  ∀ (s : State) (r : Bytes),
    (s.iop = .recv → s.params.maxRespR < r.length →
      (s.ph = .handshake → exec (.rspHELLO (.data r)) s = .fault (.bufferRange .resp)) ∧
      (s.ph = .info → exec (.rspINFO (.data r)) s = .fault (.bufferRange .resp)) ∧
      (s.ph = .model → exec (.rspMODEL (.data r)) s = .fault (.bufferRange .resp)) ∧
      (s.ph = .erase → exec (.rspERASED (.data r)) s = .fault (.bufferRange .resp)) ∧
      (s.ph = .write → exec (.rspWRITED (.data r)) s = .fault (.bufferRange .resp)) ∧
      (s.ph = .readback → exec (.rspREADBACK (.data r)) s = .fault (.bufferRange .resp))) ∧
    (s.iop = .recv → s.ph = .info → r.length ≤ s.params.maxRespR → s.params.maxRespI < r.length →
      exec (.rspINFO (.data r)) s = .fault (.bufferRange .info)) ∧
    (s.iop = .recv → s.ph = .readback → r.length ≤ s.params.maxRespR →
      r.length = expectedLen s.params s.clen.toNat →
      ∀ f, currentChunk s = .error f → exec (.rspREADBACK (.data r)) s = .fault f) ∧
    (s.iop = .send → s.ph = .write → s.params.chunkSize < r.length →
      ∀ cks addr, exec (.reqW cks addr r) s = .fault (.bufferRange .diagCmd))

/-- The frame of the responses: a response that answers a next state stores its `r` bytes in `RESP` from 0 (`INFO` too,
where the info text is accepted) and touches of the block only the registers its rule writes; of the rest only the
record, for a verified chunk. -/
def Obligations.ResponsesTouchOnlyTheirBuffer : Prop :=
  ∀ (i : Instr) (r : Bytes) (s t : State),
    i ∈ [.rspHELLO (.data r), .rspINFO (.data r), .rspMODEL (.data r), .rspERASED (.data r), .rspWRITED (.data r),
      .rspREADBACK (.data r)] →
    exec i s = .next t →
    (∀ a, r.length ≤ a → memGet t.resp a = memGet s.resp a) ∧
    (∀ a, r.length ≤ a → memGet t.info a = memGet s.info a) ∧
    (i ≠ .rspINFO (.data r) ∨ t.ph = .aborted → t.info = s.info ∧ t.infoLen = s.infoLen) ∧
    t.chunk = s.chunk ∧ t.diagCmd = s.diagCmd ∧ t.diagCmdLen = s.diagCmdLen ∧
    t.params = s.params ∧ t.cfgWrite = s.cfgWrite ∧ t.cfgErase = s.cfgErase ∧ t.cfgModel = s.cfgModel ∧
    t.cfgVariant = s.cfgVariant ∧ t.fsize = s.fsize ∧ t.clen = s.clen ∧ t.cks = s.cks ∧ t.rreason = s.rreason ∧
    (i ≠ .rspREADBACK (.data r) ∨ t.ph = .aborted →
      t.addr = s.addr ∧ t.progress = s.progress ∧ t.trace = s.trace) ∧
    (t.ph ≠ .aborted → t.err = s.err ∧ t.ioCause = s.ioCause ∧ t.diagExp = s.diagExp ∧ t.diagAct = s.diagAct) ∧
    t.hostMoves = s.hostMoves ∧ t.linkOpen = s.linkOpen ∧ t.linkWrites = s.linkWrites ∧
    t.linkReads = s.linkReads ∧ t.linkDraws = s.linkDraws ∧ t.file = s.file ∧ t.fcur = s.fcur

/-- An instruction run in a `(ph, iop)` that does not select it stops by name (the model's choice, log 8; step never does
so). -/
def Obligations.InstructionsStopOutsideTheirPhase : Prop :=
  ∀ (i : Instr) (s : State), ¬ (s.ph = phaseOf i ∧ s.iop = iopOf i) → exec i s = .fault .stepNotEnabled

/-! ## The step -/

/-- 41_session.md R210: FETCH, with a legal chunk size: the session is done on an empty read, else the chunk, its length
and its checksum are loaded and the next phase is `WRITE` or, with writing disabled, `READBACK`. That the bytes of `CHUNK`
at and above `CLEN` have no value afterwards is the model's reading of 10_state.md R38 (log 9, DEDUCED), not R210's. -/
def Obligations.FetchLoadsAChunkOrEndsTheSession : Prop :=
  ∀ s : State, hostQuiet s → s.ph = .fetch → s.iop = .send → s.params.chunkSize ≤ 100 →
    let s1 := (hostTurn s).2
    let c := (s.file.drop s.fcur).take s.params.chunkSize
    (c = [] → step s = .next
      { s1 with trace := s.trace ++ [.file s.params.chunkSize []], ph := .done }) ∧
    (c ≠ [] → ∃ t, step s = .next t ∧ t.clen.toNat = c.length ∧ currentChunk t = .ok c ∧ t = { s1 with
      fcur := s.fcur + c.length
      trace := s.trace ++ [.file s.params.chunkSize c]
      chunk := memPutBytes [] 0 c
      clen := BitVec.ofNat 8 c.length
      cks := checksum c
      ph := if s.cfgWrite then .write else .readback })

/-- A step runs the decoded instruction: where the bytes of the transaction that `(ph, iop)` selects decode to `i`, the
step is `exec i`, at the state itself for a request, and once the response has been read for a response. -/
def Obligations.StepRunsTheDecodedInstruction : Prop :=
  ∀ (s : State) (i : Instr) (bs : Bytes), hostQuiet s →
    wireBytes (hostTurn s).2 = some bs → decodeAt s.params s.ph s.iop bs = .ok i →
    (s.iop = .send → step s = exec i (hostTurn s).2) ∧
    (s.iop = .recv → step s = exec i (linkRead (readLimit s.params s.ph) (hostTurn s).2).2)

/-- Placing a word of the table (log 10) makes it the instruction of the very next step: with the source's parameters,
in every state, the next step after `withFetchWord` is the decoded instruction's, run where its own `(ph, iop)` selects
it: at the placed state with the schedule's entry spent for a request, and after the `LinkRead` for a response. -/
def Obligations.PlacedWordsAreTheNextInstruction : Prop :=
  ∀ (s : State) (nbits w : Nat) (i : Instr), s.params = Params.source → decodeTableWord nbits w = some i →
    let u := s.withFetchWord nbits w
    u.ph = phaseOf i ∧ u.iop = iopOf i ∧
    (iopOf i = .send → step u = exec i (hostTurn u).2) ∧
    (iopOf i = .recv → step u = exec i (linkRead (readLimit s.params (phaseOf i)) (hostTurn u).2).2)

/-- 41_session.md R215 to R217, 60_exceptions.md R274, 10_state.md R30: in `IDLE` and in a terminal phase no step of the
engine is enabled; all that passes is the Host's schedule. -/
def Obligations.WithoutAnEnabledStepNothingChanges : Prop :=
  ∀ s : State, hostQuiet s → s.iop = .send → (s.ph = .idle ∨ isTerminal s.ph = true) →
    step s = .next (hostTurn s).2

/-- 41_session.md R220: the linear order of the phases. Only a `Terminate` leaves a terminal phase, and the only move
backward in the order is READBACK to FETCH. -/
def Obligations.PhasesFollowTheLinearOrder : Prop :=
  ∀ s t : State, step s = .next t →
    ((hostTurn s).1 = some .terminate ∧ t.ph = .idle) ∨
    (s.ph = .idle ∧ t.ph ∈ [.idle, .handshake, .aborted, .refused]) ∨
    t.ph ∈ mayFollow s.ph

/-- 41_session.md R225, R226, 20_memory.md R78, R82: the port operations one step adds to the record, phase by phase. A
read returns no more bytes than it asked for; a read-back that leads to FETCH emits one `Progress`, and no other step
does. -/
def Obligations.PortOperationsOfAStep : Prop :=
  ∀ s t : State, hostQuiet s → step s = .next t →
    t.trace = s.trace ++ newEvents s t ∧
    (isTransaction s.ph = false → s.ph ≠ .fetch → newEvents s t = []) ∧
    (s.ph = .fetch → ∃ c : Bytes, c.length ≤ s.params.chunkSize ∧
      newEvents s t = [.file s.params.chunkSize c]) ∧
    (isTransaction s.ph = true → s.iop = .send →
      (t.ph = .refused ∧ newEvents s t = []) ∨ (∃ f, newEvents s t = [.tx f] ∧ t.iop = .recv ∧ t.ph = s.ph) ∨
      (∃ f, newEvents s t = [.txErr f] ∧ t.ph = .aborted)) ∧
    (isTransaction s.ph = true → s.iop = .recv →
      (∃ r : Bytes, r.length ≤ readLimit s.params s.ph ∧ t.iop = .send ∧
        ((¬(s.ph = .readback ∧ t.ph = .fetch) ∧ newEvents s t = [.rx (readLimit s.params s.ph) r]) ∨
          (s.ph = .readback ∧ t.ph = .fetch ∧
            newEvents s t = [.rx (readLimit s.params s.ph) r, .progress t.progress]))) ∨
      (newEvents s t = [.rxErr (readLimit s.params s.ph)] ∧ t.ph = .aborted))

/-- 30_encoding.md R113: every frame the engine emits is one of the six requests with legal field values. -/
def Obligations.EngineEmitsOnlyLegalRequests : Prop :=
  ∀ (s t : State) (f : Bytes), Inv s → step s = .next t →
    (.tx f ∈ newEvents s t ∨ .txErr f ∈ newEvents s t) →
    ∃ i : Instr, i.wellFormed s.params = true ∧ iopOf i = .send ∧ f = encode i

/-- 41_session.md R221, R222: no erase frame is emitted unless the model is FLASH and erase is enabled, and no write frame
unless writing is enabled. -/
def Obligations.NoEraseOrWriteFrameWhenDisabled : Prop :=
  ∀ (s t : State) (f : Bytes), Inv s → step s = .next t →
    (.tx f ∈ newEvents s t ∨ .txErr f ∈ newEvents s t) →
    (f.take 2 = [chDollar, chF] → s.cfgModel = .flash ∧ s.cfgErase = true) ∧
    (f.take 2 = [chDollar, chW] → s.cfgWrite = true)

/-- The status port's codes and the exit status: 10_state.md R30, R43, R44, R47, 60_exceptions.md R286. -/
def Obligations.StatusCodesAreThoseOfTheTables : Prop :=
  [Phase.idle, .handshake, .info, .model, .erase, .fetch, .write, .readback, .done, .aborted, .refused].map
    (fun p => (phaseCode p).toNat) = List.range 11 ∧
  [ErrCode.none, .handshakeFailed, .noInfoResponse, .modelRejected, .eraseFailed, .writeRejected,
    .readbackShapeMismatch, .verifyMismatch, .ioError, .malformedField].map (fun e => (errCode e).toNat) =
    List.range 10 ∧
  [IoCause.none, .portNotOpen, .linkWrite, .linkRead].map (fun c => (ioCauseCode c).toNat) = List.range 4 ∧
  [RefuseReason.none, .variantLegacy, .parameterIllegal, .sectorCountOver255, .fileTooLarge].map
    (fun r => (refuseCode r).toNat) = List.range 5 ∧
  exitStatus .done = some 0 ∧ exitStatus .aborted = some (-1) ∧ exitStatus .refused = none

/-! ## Invariants -/

/-- The invariant of the block holds right after reset. -/
def Obligations.InvariantHoldsAtReset : Prop := Inv State.reset

/-- Every step keeps the invariant of the block, whatever the Host, the Link and the File do. -/
def Obligations.EveryStepKeepsTheInvariant : Prop :=
  ∀ s t : State, Inv s → step s = .next t → Inv t

/-- 20_memory.md R73, 41_session.md R200: from a state with the invariant, and read limits that fit the response buffer,
no step faults or is refused: no access falls outside a buffer, no byte without a value is read, no unreachable phase is
entered. -/
def Obligations.NoStepFromTheInvariantStops : Prop :=
  ∀ s : State, Inv s → s.params.readLimitsFit = true → ∃ t, step s = .next t

/-- The File's invariant holds right after reset. -/
def Obligations.FileInvariantHoldsAtReset : Prop := FileInv State.reset

/-- 10_state.md R54, 20_memory.md R75: every step keeps the tie between the session and its File, under the launch
premise. -/
def Obligations.EveryStepKeepsTheFileInvariant : Prop :=
  ∀ s t : State, Inv s → FileInv s → launched s → step s = .next t → FileInv t

/-- 20_memory.md R75, 41_session.md R223: FETCH takes the chunk at File offset `ADDR`, as long as the chunk size or the
File allows, and leaves `ADDR`. -/
def Obligations.FetchTakesTheChunkAtTheAddress : Prop :=
  ∀ s t : State, Inv s → FileInv s → hostQuiet s → s.ph = .fetch → step s = .next t → t.ph ≠ .done →
    t.addr = s.addr ∧ t.clen.toNat = min s.params.chunkSize (s.fsize - s.addr) ∧
    currentChunk t = .ok ((s.file.drop s.addr).take s.params.chunkSize)

/-- 41_session.md R224, R226: a verified chunk advances `ADDR` by `CLEN` without a wrap, and reports
`floor(ADDR * 100 / FSIZE)`, which is 100 where the File is at its end. -/
def Obligations.VerifiedChunksAdvanceAndReport : Prop :=
  ∀ s t : State, Inv s → FileInv s → hostQuiet s → s.ph = .readback → step s = .next t → t.ph = .fetch →
    t.addr = s.addr + s.clen.toNat ∧ t.progress.toNat = t.addr * 100 / t.fsize ∧
    (t.fcur = t.file.length → t.progress = 100)

/-- 41_session.md R215: `DONE` is reached only from FETCH, with the whole File behind `ADDR` and no error. -/
def Obligations.DoneMeansTheFileIsExhausted : Prop :=
  ∀ s t : State, Inv s → FileInv s → step s = .next t → s.ph ≠ .done → t.ph = .done →
    s.ph = .fetch ∧ t.fsize ≤ t.addr ∧ t.err = .none

/-! ## Sessions -/

/-- 70_reset_and_hazards.md R321: a running session whose Host stays silent ends in a terminal phase within the steps the
rule counts; right after a Start these are `9 + 5 * ceil((len(F) - fcur) / CHUNK_SIZE)`. -/
def Obligations.EverySessionEnds : Prop :=
  ∀ s : State, Inv s → s.params.readLimitsFit = true → s.hostMoves = [] → isRunning s.ph = true →
    ∃ k t, k ≤ stepsLeft s ∧ Sys2Proof.core.run k s = .next t ∧ isTerminal t.ph = true

/-- 70_reset_and_hazards.md R304, 41_session.md R223, R225, R226: launched with legal parameters, an open Link and a File
that fits, and answered by a device as R304 asks, a session reaches `DONE`, and its port operations are those of R225,
chunk by chunk. `ADDR` is then at the File's end, or still at a start value at or above it, which gives no chunk
(R201, R223). -/
def Obligations.AGoodDeviceLeadsToDone : Prop :=
  ∀ (p : Params) (cfg : StartCfg) (f info er hdr : Bytes) (m t : Byte),
    p.variant = .canonical → p.inRange = true → p.readLimitsFit = true →
    f.length < 2 ^ p.fsizeW → cfg.start < 2 ^ p.addrW → (erases cfg = true → f.length < 1044480) →
    1 ≤ info.length → info.length ≤ p.maxRespI →
    er.length ≤ p.maxRespFES → valErased er = true → hdr.length = 6 →
    ∃ k s, Sys2Proof.core.run k (launchState p cfg f (goodReplies p cfg f info er hdr m t)) = .next s ∧
      s.ph = .done ∧ s.err = .none ∧ s.addr = max cfg.start f.length ∧
      s.trace = goodTrace p cfg f info er hdr m t

/-! ## The ports -/

/-- 60_exceptions.md R283: while a session runs, its ports are its own, and when it ends, in `DONE`, `ABORTED`, `REFUSED` or
by a `Terminate`, they are released. A move of the Host to open the File or the Link has no effect during a session (the
engine steps), no step of a session gives it another File or Link, and outside a session the move takes effect. (That the
Host's opening is a move of its own is the model's choice, log 6.) -/
def Obligations.PortsAreHeldExactlyDuringASession : Prop :=
  (∀ s t : State, isRunning s.ph = true → step s = .next t → t.file = s.file ∧ t.linkOpen = s.linkOpen) ∧
  ∀ (s : State) (ms : List (Option HostMove)),
    (∀ (f : Bytes) (pos : Nat), s.hostMoves = some (.openFile f pos) :: ms →
      (isRunning s.ph = true → step s = engineStep { s with hostMoves := ms }) ∧
      (s.ph = .idle ∨ isTerminal s.ph = true → step s = .next { s with hostMoves := ms, file := f, fcur := pos })) ∧
    (∀ ok : Bool, s.hostMoves = some (.openLink ok) :: ms →
      (isRunning s.ph = true → step s = engineStep { s with hostMoves := ms }) ∧
      (s.ph = .idle ∨ isTerminal s.ph = true → step s = .next { s with hostMoves := ms, linkOpen := ok }))
end

