-- ==== Sys2Proof/Laws/Memory.lean ====
section
/-! SUPPORT. The laws of buffer memory: what a read gives after a write, and that every write keeps the canonical form
and the bound. -/

namespace Sys2Proof.Machine
open Sys2Proof

theorem memGet_memPut (m : Memory) (a x : Nat) (b : Byte) :
    memGet (memPut m a b) x = if x = a then some b else memGet m x := by
  induction m with
  | nil => simp [memPut, memGet]
  | cons c m ih =>
    obtain ⟨y, v⟩ := c
    rw [memPut]
    rcases Nat.lt_trichotomy a y with h1 | h1 | h1
    · rw [if_pos h1]; rfl
    · subst h1
      rw [if_neg (Nat.lt_irrefl a), if_pos rfl]
      by_cases hx : x = a <;> simp [memGet, hx]
    · rw [if_neg (by omega), if_neg (by omega)]
      by_cases hx : x = y
      · have hxa : x ≠ a := by omega
        simp [memGet, hx, hx ▸ hxa]
      · simp [memGet, hx, ih]

/-- A read after a write: inside the written string its byte, elsewhere what stood there. -/
theorem memGet_memPutBytes (m : Memory) (a x : Nat) (bs : Bytes) :
    memGet (memPutBytes m a bs) x =
      if a ≤ x ∧ x < a + bs.length then bs[x - a]? else memGet m x := by
  induction bs generalizing m a with
  | nil => simp [memPutBytes]
  | cons b bs ih =>
    rw [memPutBytes, ih, memGet_memPut]
    by_cases hx : x = a
    · subst hx; simp
    · by_cases h : a ≤ x ∧ x < a + (b :: bs).length
      · have h' : a + 1 ≤ x ∧ x < a + 1 + bs.length := by
          simp only [List.length_cons] at h; omega
        have : x - a = (x - (a + 1)) + 1 := by omega
        rw [if_pos h, if_pos h', this, List.getElem?_cons_succ]
      · have h' : ¬ (a + 1 ≤ x ∧ x < a + 1 + bs.length) := by
          simp only [List.length_cons] at h; omega
        rw [if_neg h, if_neg h', if_neg hx]

/-- What was written reads back. -/
theorem memGetBytes_memPutBytes (m : Memory) (a : Nat) (bs : Bytes) :
    memGetBytes (memPutBytes m a bs) a bs.length = some bs := by
  induction bs generalizing m a with
  | nil => rfl
  | cons b bs ih =>
    have h : memGet (memPutBytes m a (b :: bs)) a = some b := by
      rw [memGet_memPutBytes]; simp
    simp only [List.length_cons, memGetBytes, h]
    rw [memPutBytes, ih]

theorem memGetBytes_length (m : Memory) (a n : Nat) (bs : Bytes) (h : memGetBytes m a n = some bs) :
    bs.length = n := by
  induction n generalizing a bs with
  | zero => simp [memGetBytes] at h; simp [← h]
  | succ n ih =>
    unfold memGetBytes at h
    split at h
    · next b bs' _ h2 => cases h; simp [ih _ _ h2]
    · cases h

theorem memAbove_mono (m : Memory) (lo lo' : Nat) (h : memAbove lo m = true) (hl : lo' ≤ lo) :
    memAbove lo' m = true := by
  cases m with
  | nil => rfl
  | cons c m => simp [memAbove] at h ⊢; exact ⟨by omega, h.2⟩

theorem memAbove_memPut (m : Memory) (lo a : Nat) (b : Byte) (h : memAbove lo m = true) (ha : lo ≤ a) :
    memAbove lo (memPut m a b) = true := by
  induction m generalizing lo with
  | nil => simp [memPut, memAbove, ha]
  | cons c m ih =>
    obtain ⟨y, v⟩ := c
    simp only [memAbove, Bool.and_eq_true, decide_eq_true_eq] at h
    unfold memPut
    split_ifs with h1 h2
    · simp only [memAbove, Bool.and_eq_true, decide_eq_true_eq]
      exact ⟨ha, by omega, h.2⟩
    · subst h2; simp only [memAbove, Bool.and_eq_true, decide_eq_true_eq]; exact h
    · simp only [memAbove, Bool.and_eq_true, decide_eq_true_eq]
      exact ⟨h.1, ih _ h.2 (by omega)⟩

/-- Writing a byte keeps the canonical form. -/
theorem memWf_memPut (m : Memory) (a : Nat) (b : Byte) (h : memWf m = true) : memWf (memPut m a b) = true :=
  memAbove_memPut m 0 a b h (Nat.zero_le a)

/-- Writing a string keeps the canonical form. -/
theorem memWf_memPutBytes (m : Memory) (a : Nat) (bs : Bytes) (h : memWf m = true) :
    memWf (memPutBytes m a bs) = true := by
  induction bs generalizing m a with
  | nil => exact h
  | cons b bs ih => exact ih _ _ (memWf_memPut m a b h)

theorem memBelow_cons (hi y : Nat) (v : Byte) (m : Memory) :
    memBelow hi ((y, v) :: m) = true ↔ y < hi ∧ memBelow hi m = true := by
  unfold memBelow
  rw [List.all_cons, Bool.and_eq_true, decide_eq_true_eq]

theorem memBelow_memPut (m : Memory) (hi a : Nat) (b : Byte) (h : memBelow hi m = true) (ha : a < hi) :
    memBelow hi (memPut m a b) = true := by
  induction m with
  | nil => exact (memBelow_cons hi a b []).2 ⟨ha, rfl⟩
  | cons c m ih =>
    obtain ⟨y, v⟩ := c
    have hc := (memBelow_cons hi y v m).1 h
    rw [memPut]
    split
    · exact (memBelow_cons _ _ _ _).2 ⟨ha, h⟩
    · split
      · exact (memBelow_cons _ _ _ _).2 ⟨ha, hc.2⟩
      · exact (memBelow_cons _ _ _ _).2 ⟨hc.1, ih hc.2⟩

/-- Writing a string that ends within a bound keeps every address below it. -/
theorem memBelow_memPutBytes (m : Memory) (hi a : Nat) (bs : Bytes) (h : memBelow hi m = true)
    (ha : a + bs.length ≤ hi) : memBelow hi (memPutBytes m a bs) = true := by
  induction bs generalizing m a with
  | nil => exact h
  | cons b bs ih =>
    simp only [List.length_cons] at ha
    exact ih _ _ (memBelow_memPut m hi a b h (by omega)) (by omega)

/-- The canonical form is one: two memories in it that read alike at every address are the same list. -/
theorem memGet_of_lt (m : Memory) (lo x : Nat) (h : memAbove lo m = true) (hx : x < lo) : memGet m x = none := by
  induction m generalizing lo with
  | nil => rfl
  | cons c m ih =>
    simp only [memAbove, Bool.and_eq_true, decide_eq_true_eq] at h
    have : x ≠ c.1 := by omega
    simp [memGet, this, ih _ h.2 (by omega)]

theorem memory_ext (m m' : Memory) (lo : Nat) (h : memAbove lo m = true) (h' : memAbove lo m' = true)
    (e : ∀ x, memGet m x = memGet m' x) : m = m' := by
  induction m generalizing m' lo with
  | nil =>
    cases m' with
    | nil => rfl
    | cons c m' => have := e c.1; simp [memGet] at this
  | cons c m ih =>
    cases m' with
    | nil => have := e c.1; simp [memGet] at this
    | cons c' m' =>
      obtain ⟨y, v⟩ := c
      obtain ⟨y', v'⟩ := c'
      simp only [memAbove, Bool.and_eq_true, decide_eq_true_eq] at h h'
      have hy : y = y' := by
        by_contra hne
        rcases Nat.lt_or_gt_of_ne hne with hl | hl
        · have := e y
          simp [memGet, hne, memGet_of_lt m' _ y h'.2 (by omega)] at this
        · have hne' : ¬ y' = y := fun q => hne q.symm
          have := e y'
          simp [memGet, hne', memGet_of_lt m _ y' h.2 (by omega)] at this
      subst hy
      have hv : v = v' := by have := e y; simpa [memGet] using this
      subst hv
      have : m = m' := by
        refine ih m' (y + 1) h.2 h'.2 fun x => ?_
        by_cases hx : x = y
        · subst hx
          rw [memGet_of_lt m _ x h.2 (by omega), memGet_of_lt m' _ x h'.2 (by omega)]
        · have := e x; simpa [memGet, hx] using this
      rw [this]

end Sys2Proof.Machine
end

