-- ==== Sys2Proof/Laws/State.lean ====
section
/-! SUPPORT. The fields of the state after each update of it. `record`, `setAddr`, `setFsize`, `abort`, `refuse` and
`blockReset` carry their field lemmas with them (Machine/Ops.lean tags each with simps: `abort_ph`, `abort_addr`, and so
on, one per field, true by rfl). Here stand those of a buffer write, which goes by cases. -/

namespace Sys2Proof.Machine
open Sys2Proof

@[simp] theorem bufOf_setBuf_same (s : State) (b : Buffer) (m : Memory) : bufOf (setBuf s b m) b = m := by
  cases b <;> rfl

theorem bufOf_setBuf_other (s : State) (b b' : Buffer) (m : Memory) (h : b' ≠ b) :
    bufOf (setBuf s b m) b' = bufOf s b' := by
  cases b <;> cases b' <;> first | rfl | exact absurd rfl h

@[simp] theorem setBuf_chunk (s : State) (m : Memory) : setBuf s .chunk m = { s with chunk := m } := rfl
@[simp] theorem setBuf_resp (s : State) (m : Memory) : setBuf s .resp m = { s with resp := m } := rfl
@[simp] theorem setBuf_info (s : State) (m : Memory) : setBuf s .info m = { s with info := m } := rfl
@[simp] theorem setBuf_diagCmd (s : State) (m : Memory) : setBuf s .diagCmd m = { s with diagCmd := m } := rfl
@[simp] theorem bufOf_chunk (s : State) : bufOf s .chunk = s.chunk := rfl
@[simp] theorem bufOf_resp (s : State) : bufOf s .resp = s.resp := rfl
@[simp] theorem bufOf_info (s : State) : bufOf s .info = s.info := rfl
@[simp] theorem bufOf_diagCmd (s : State) : bufOf s .diagCmd = s.diagCmd := rfl
@[simp] theorem capacity_chunk (p : Params) : capacity p .chunk = p.chunkSize := rfl
@[simp] theorem capacity_resp (p : Params) : capacity p .resp = p.maxRespR := rfl
@[simp] theorem capacity_info (p : Params) : capacity p .info = p.maxRespI := rfl
@[simp] theorem capacity_diagCmd (p : Params) : capacity p .diagCmd = 14 + 3 * p.chunkSize := rfl

end Sys2Proof.Machine
end

