-- ==== Sys2Proof/Laws/Ops.lean ====
section
/-! SUPPORT. For each shared operation, once, everything it can do. -/

namespace Sys2Proof.Machine
open Sys2Proof

/-! ## Memory access -/

theorem memWrite_next (s t : State) (b : Buffer) (a : Nat) (v : Bytes) (k : State → Out) :
    memWrite s b a v k = .next t ↔
      a + v.length ≤ capacity s.params b ∧ k (setBuf s b (memPutBytes (bufOf s b) a v)) = .next t := by
  unfold memWrite
  split <;> simp_all

theorem memRead_ok (s : State) (b : Buffer) (a n : Nat) (v : Bytes) :
    memRead s b a n = .ok v ↔ a + n ≤ capacity s.params b ∧ memGetBytes (bufOf s b) a n = some v := by
  unfold memRead
  split
  · split <;> simp_all
  · simp_all

/-- A string written and read back at the same place. -/
theorem memRead_setBuf (s : State) (b : Buffer) (a : Nat) (v : Bytes) (h : a + v.length ≤ capacity s.params b) :
    memRead (setBuf s b (memPutBytes (bufOf s b) a v)) b a v.length = .ok v := by
  rw [memRead_ok, bufOf_setBuf_same, memGetBytes_memPutBytes]
  cases b <;> exact ⟨h, rfl⟩

/-! ## Ports -/

theorem drawWrite_ok (s : State) (w : WriteResult) (ws : List WriteResult) (h : s.linkWrites = w :: ws) :
    drawWrite s = (w, { s with linkWrites := ws }) := by
  unfold drawWrite; rw [h]

theorem drawRead_data (s : State) (r : ReadResult) (rs : List ReadResult) (h : s.linkReads = r :: rs) :
    drawRead s = (r, { s with linkReads := rs }) := by
  unfold drawRead; rw [h]

/-- A draw of a write touches the Link alone. -/
theorem drawWrite_cases (s : State) :
    ∃ w ws n, drawWrite s = (w, { s with linkWrites := ws, linkDraws := n }) := by
  unfold drawWrite
  split
  · next w ws _ => exact ⟨w, ws, s.linkDraws, rfl⟩
  · exact ⟨_, s.linkWrites, _, rfl⟩

/-- A draw of a read touches the Link alone. -/
theorem drawRead_cases (s : State) :
    ∃ r rs n, drawRead s = (r, { s with linkReads := rs, linkDraws := n }) := by
  unfold drawRead
  split
  · next r rs _ => exact ⟨r, rs, s.linkDraws, rfl⟩
  · exact ⟨_, s.linkReads, _, rfl⟩

theorem linkWrite_cases (f : Bytes) (s : State) :
    ∃ ws n,
      linkWrite f s = (.ok, { s with linkWrites := ws, linkDraws := n, trace := s.trace ++ [.tx f] }) ∨
      linkWrite f s = (.ioError, { s with linkWrites := ws, linkDraws := n, trace := s.trace ++ [.txErr f] }) := by
  obtain ⟨w, ws, n, h⟩ := drawWrite_cases s
  refine ⟨ws, n, ?_⟩
  unfold linkWrite
  rw [h]
  cases w
  · exact .inl rfl
  · exact .inr rfl

/-- What a `LinkRead` returns is at most as long as it asked for (20_memory.md R78). -/
theorem linkRead_cases (m : Nat) (s : State) :
    ∃ rs n,
      (∃ r : Bytes, r.length ≤ m ∧
        linkRead m s = (.data r, { s with linkReads := rs, linkDraws := n, trace := s.trace ++ [.rx m r] })) ∨
      linkRead m s = (.ioError, { s with linkReads := rs, linkDraws := n, trace := s.trace ++ [.rxErr m] }) := by
  obtain ⟨r, rs, n, h⟩ := drawRead_cases s
  refine ⟨rs, n, ?_⟩
  unfold linkRead
  rw [h]
  cases r with
  | data r => exact .inl ⟨r.take m, by simp, rfl⟩
  | ioError => exact .inr rfl

/-! ## The procedures common to the steps -/

theorem whenEnabled_next (ph : Phase) (iop : IoPhase) (s t : State) (o : Out) :
    whenEnabled ph iop s o = .next t ↔ (s.ph = ph ∧ s.iop = iop) ∧ o = .next t := by
  unfold whenEnabled
  split <;> simp_all

theorem whenEnabled_of (ph : Phase) (iop : IoPhase) (s : State) (o : Out) (h : s.ph = ph) (h' : s.iop = iop) :
    whenEnabled ph iop s o = o := by
  unfold whenEnabled; rw [if_pos ⟨h, h'⟩]

theorem whenEnabled_off (ph : Phase) (iop : IoPhase) (s : State) (o : Out) (h : ¬ (s.ph = ph ∧ s.iop = iop)) :
    whenEnabled ph iop s o = .fault .stepNotEnabled := by
  unfold whenEnabled; rw [if_neg h]

/-- The two ends of a Tx step: the frame is handed over, or the session aborts (41_session.md R218). -/
theorem txSend_cases (f : Bytes) (s : State) :
    ∃ ws n,
      txSend f s =
        { s with linkWrites := ws, linkDraws := n, trace := s.trace ++ [.tx f], iop := .recv } ∨
      txSend f s =
        abort .ioError .linkWrite
          { s with linkWrites := ws, linkDraws := n, trace := s.trace ++ [.txErr f] } := by
  obtain ⟨ws, n, h | h⟩ := linkWrite_cases f s
  · exact ⟨ws, n, .inl (by unfold txSend; rw [h])⟩
  · exact ⟨ws, n, .inr (by unfold txSend; rw [h])⟩

theorem txSend_ok (f : Bytes) (s : State) (ws : List WriteResult) (h : s.linkWrites = .ok :: ws) :
    txSend f s = { s with linkWrites := ws, trace := s.trace ++ [.tx f], iop := .recv } := by
  unfold txSend linkWrite
  rw [drawWrite_ok s _ _ h]
  rfl

theorem txSend_ioError (f : Bytes) (s : State) (ws : List WriteResult) (h : s.linkWrites = .ioError :: ws) :
    txSend f s =
      abort .ioError .linkWrite { s with linkWrites := ws, trace := s.trace ++ [.txErr f] } := by
  unfold txSend linkWrite
  rw [drawWrite_ok s _ _ h]
  rfl

theorem tx_next (f : Bytes) (s t : State) :
    tx f s = .next t ↔
      f.length ≤ 14 + 3 * s.params.chunkSize ∧
      t = txSend f { s with diagCmd := memPutBytes s.diagCmd 0 f, diagCmdLen := f.length } := by
  unfold tx
  rw [memWrite_next]
  simp [eq_comm]

theorem rx_next (res : ReadResult) (s t : State) (k : Bytes → State → Out) :
    rx res s k = .next t ↔
      (res = .ioError ∧ t = abort .ioError .linkRead { s with iop := .send, respLen := 0 }) ∨
      (∃ r, res = .data r ∧ r.length ≤ s.params.maxRespR ∧
        k r { s with iop := .send, resp := memPutBytes s.resp 0 r, respLen := r.length } = .next t) := by
  cases res with
  | ioError => simp [rx, eq_comm]
  | data r => simp [rx, memWrite_next]

theorem rx_data (r : Bytes) (s : State) (k : Bytes → State → Out) (h : r.length ≤ s.params.maxRespR) :
    rx (.data r) s k =
      k r { s with iop := .send, resp := memPutBytes s.resp 0 r, respLen := r.length } := by
  simp [rx, memWrite, h]

/-! ## START, FETCH and the Host -/

/-- The five ends of START, in the order of its checks (41_session.md R201, 60_exceptions.md R267). -/
theorem startSession_cases (cfg : StartCfg) (s : State) :
    (s.params.variant ≠ .canonical ∧ startSession cfg s = refuse .variantLegacy s) ∨
    (s.params.variant = .canonical ∧ s.params.inRange = false ∧
      startSession cfg s = refuse .parameterIllegal s) ∨
    (s.params.variant = .canonical ∧ s.params.inRange = true ∧
      ∃ s1, s1 = { s with
          cfgWrite := cfg.write, cfgErase := cfg.erase, cfgModel := cfg.model, cfgVariant := .canonical,
          addr := cfg.start % 2 ^ s.params.addrW, trace := s.trace ++ [.fileSize s.file.length] } ∧
        ((2 ^ s.params.fsizeW ≤ s.file.length ∧ startSession cfg s = refuse .fileTooLarge s1) ∨
          (s.file.length < 2 ^ s.params.fsizeW ∧
            ∃ s2, s2 = { s1 with
                fsize := s.file.length, trace := s1.trace ++ [.linkIsOpen s.linkOpen] } ∧
              ((s.linkOpen = true ∧ startSession cfg s = { s2 with iop := .send, ph := .handshake }) ∨
                (s.linkOpen = false ∧ startSession cfg s = abort .ioError .portNotOpen s2))))) := by
  by_cases hv : s.params.variant = .canonical
  · cases hr : s.params.inRange with
    | false => exact .inr (.inl ⟨hv, rfl, by simp [startSession, hv, hr]⟩)
    | true =>
      refine .inr (.inr ⟨hv, rfl, _, rfl, ?_⟩)
      by_cases hs : 2 ^ s.params.fsizeW ≤ s.file.length
      · exact .inl ⟨hs, by simp [startSession, startPorts, fileSize, setAddr, record, hv, hr, hs]⟩
      · have hl : s.file.length < 2 ^ s.params.fsizeW := by omega
        refine .inr ⟨hl, _, rfl, ?_⟩
        cases ho : s.linkOpen with
        | true =>
          exact .inl ⟨rfl, by
            simp [startSession, startPorts, fileSize, linkIsOpen, setAddr, setFsize, record, hv, hr, hs, ho,
              Nat.mod_eq_of_lt hl]⟩
        | false =>
          exact .inr ⟨rfl, by
            simp [startSession, startPorts, fileSize, linkIsOpen, setAddr, setFsize, record, hv, hr, hs, ho,
              Nat.mod_eq_of_lt hl]⟩
  · exact .inl ⟨hv, by simp [startSession, hv]⟩

/-- The two ends of FETCH (41_session.md R210). -/
theorem fetchChunk_next (s t : State) :
    fetchChunk s = .next t ↔
      (nextBytes s = [] ∧ t = { s with
          trace := s.trace ++ [.file s.params.chunkSize []], ph := .done }) ∨
      (nextBytes s ≠ [] ∧ t = { s with
          fcur := s.fcur + (nextBytes s).length
          trace := s.trace ++ [.file s.params.chunkSize (nextBytes s)]
          chunk := memPutBytes [] 0 (nextBytes s)
          clen := BitVec.ofNat 8 (nextBytes s).length
          cks := checksum (nextBytes s)
          ph := if s.cfgWrite then .write else .readback }) := by
  have hle : 0 + (nextBytes s).length ≤ s.params.chunkSize := by simp [nextBytes]
  have hf : fileRead s.params.chunkSize s = (nextBytes s, { s with
      fcur := s.fcur + (nextBytes s).length
      trace := s.trace ++ [.file s.params.chunkSize (nextBytes s)] }) := rfl
  unfold fetchChunk
  rw [hf]
  by_cases h : nextBytes s = []
  · constructor
    · intro e; left; refine ⟨h, ?_⟩
      rw [h] at e; exact (Host.Outcome.next.inj e).symm
    · rintro (⟨-, e⟩ | ⟨h', -⟩)
      · rw [h, e]; rfl
      · exact absurd h h'
  · have hl : (nextBytes s).length ≠ 0 := fun q => h (List.eq_nil_of_length_eq_zero q)
    simp only [if_neg hl, loadChunk, memWrite_next]
    constructor
    · rintro ⟨-, e⟩; right; exact ⟨h, (Host.Outcome.next.inj e).symm⟩
    · rintro (⟨h', -⟩ | ⟨-, e⟩)
      · exact absurd h' h
      · exact ⟨hle, by rw [e]; rfl⟩

theorem hostTurn_cases (s : State) :
    (s.hostMoves = [] ∧ hostTurn s = (none, s)) ∨
    (∃ m ms, s.hostMoves = m :: ms ∧ hostTurn s = (m, { s with hostMoves := ms })) := by
  unfold hostTurn
  cases h : s.hostMoves with
  | nil => exact .inl ⟨rfl, rfl⟩
  | cons m ms => exact .inr ⟨m, ms, rfl, rfl⟩

/-- Only the schedule changes when its entry is spent. -/
theorem hostTurn_state (s : State) : ∃ ms, (hostTurn s).2 = { s with hostMoves := ms } := by
  rcases hostTurn_cases s with ⟨h, e⟩ | ⟨m, ms, h, e⟩
  · exact ⟨s.hostMoves, by rw [e]⟩
  · exact ⟨ms, by rw [e]⟩

end Sys2Proof.Machine
end

