-- ==== Sys2Proof/Laws/Step.lean ====
section
/-! SUPPORT. What a step and a meaning can do, once: the Host's move or the engine's step, and for every instruction the
ends of its meaning. -/

namespace Sys2Proof.Machine
open Sys2Proof

/-- A step is the Host's effect, where its move has one, or the engine's step after the schedule's entry is spent. -/
theorem step_cases (s : State) :
    (∃ m s2, (hostTurn s).1 = some m ∧ hostEffect m (hostTurn s).2 = some s2 ∧ step s = .next s2) ∨
    (hostQuiet s ∧ step s = engineStep (hostTurn s).2) := by
  unfold step hostQuiet
  cases h : hostTurn s with
  | mk m s1 =>
    cases m with
    | none => exact .inr ⟨trivial, rfl⟩
    | some m =>
      cases h2 : hostEffect m s1 with
      | some s2 => exact .inl ⟨m, s2, rfl, h2, by simp [h2]⟩
      | none => exact .inr ⟨h2, by simp [h2]⟩

theorem step_quiet (s : State) (h : hostQuiet s) : step s = engineStep (hostTurn s).2 := by
  unfold hostQuiet at h
  unfold step
  cases e : hostTurn s with
  | mk m s1 =>
    rw [e] at h
    cases m with
    | none => rfl
    | some m => simp_all

/-- What a request does in its phase: it sends its frame, but for an erase count that has none. -/
theorem exec_request_next (i : Instr) (s t : State) (hi : iopOf i = .send) :
    exec i s = .next t ↔
      s.ph = phaseOf i ∧ s.iop = .send ∧
      ((∃ start count, i = .reqFES start count ∧ 255 < count ∧ t = refuse .sectorCountOver255 s) ∨
        ((∀ start count, i = .reqFES start count → count ≤ 255) ∧ tx (encode i) s = .next t)) := by
  cases i <;> simp only [iopOf, reduceCtorEq] at hi <;>
    simp only [exec, execReqH, execReqI, execReqM, execReqFES, execReqW, execReqR, whenEnabled_next, encode,
      phaseOf, reduceCtorEq, false_and, exists_false, false_or, IsEmpty.forall_iff, implies_true, true_and,
      and_assoc]
  case reqFES start count =>
    by_cases h : 255 < count
    · simp [h, eq_comm]
    · have : count ≤ 255 := by omega
      simp [h, this]

/-- A response run outside its `(ph, iop)` gives no next state. -/
theorem exec_enabled (i : Instr) (s t : State) (h : exec i s = .next t) : s.ph = phaseOf i ∧ s.iop = iopOf i := by
  cases i <;>
    simp only [exec, execReqH, execReqI, execReqM, execReqFES, execReqW, execReqR, execRspHELLO, execRspINFO,
      execRspMODEL, execRspERASED, execRspWRITED, execRspREADBACK, whenEnabled_next] at h <;>
    exact h.1

/-- A failed read aborts, in every response (41_session.md R219). -/
theorem exec_read_ioError (i : Instr) (s : State) (hs : s.ph = phaseOf i) (hr : s.iop = .recv)
    (hi : i = .rspHELLO .ioError ∨ i = .rspINFO .ioError ∨ i = .rspMODEL .ioError ∨ i = .rspERASED .ioError ∨
      i = .rspWRITED .ioError ∨ i = .rspREADBACK .ioError) :
    exec i s = .next (abort .ioError .linkRead { s with iop := .send, respLen := 0 }) := by
  rcases hi with h | h | h | h | h | h <;> subst h <;>
    simp [exec, execRspHELLO, execRspINFO, execRspMODEL, execRspERASED, execRspWRITED, execRspREADBACK, whenEnabled,
      hs, hr, phaseOf, rx]

theorem execRspHELLO_data (r : Bytes) (s : State) (hs : s.ph = .handshake) (hr : s.iop = .recv)
    (hl : r.length ≤ s.params.maxRespR) :
    exec (.rspHELLO (.data r)) s = .next
      (if valHello r then { received r s with ph := .info } else abort .handshakeFailed .none (received r s)) := by
  simp only [exec, execRspHELLO, whenEnabled_of _ _ _ _ hs hr, rx_data _ _ _ hl, received]
  split <;> rfl

theorem execRspINFO_data (r : Bytes) (s : State) (hs : s.ph = .info) (hr : s.iop = .recv)
    (hl : r.length ≤ s.params.maxRespR) (hi : r.length ≤ s.params.maxRespI) :
    exec (.rspINFO (.data r)) s = .next
      (if valInfo r then
        { received r s with info := memPutBytes s.info 0 r, infoLen := r.length, ph := .model }
       else abort .noInfoResponse .none (received r s)) := by
  simp only [exec, execRspINFO, whenEnabled_of _ _ _ _ hs hr, rx_data _ _ _ hl, received]
  split
  · simp [memWrite, hi]
  · rfl

theorem execRspMODEL_data (r : Bytes) (s : State) (hs : s.ph = .model) (hr : s.iop = .recv)
    (hl : r.length ≤ s.params.maxRespR) :
    exec (.rspMODEL (.data r)) s = .next
      (if valModel r (modelDigit s.cfgModel) then
        { received r s with ph := if s.cfgModel = .flash ∧ s.cfgErase = true then .erase else .fetch }
       else abort .modelRejected .none (received r s)) := by
  simp only [exec, execRspMODEL, whenEnabled_of _ _ _ _ hs hr, rx_data _ _ _ hl, received]
  split
  · split <;> simp_all
  · rfl

theorem execRspERASED_data (r : Bytes) (s : State) (hs : s.ph = .erase) (hr : s.iop = .recv)
    (hl : r.length ≤ s.params.maxRespR) :
    exec (.rspERASED (.data r)) s = .next
      (if valErased r then { received r s with ph := .fetch } else abort .eraseFailed .none (received r s)) := by
  simp only [exec, execRspERASED, whenEnabled_of _ _ _ _ hs hr, rx_data _ _ _ hl, received]
  split <;> rfl

theorem execRspWRITED_data (r : Bytes) (s : State) (hs : s.ph = .write) (hr : s.iop = .recv)
    (hl : r.length ≤ s.params.maxRespR) :
    exec (.rspWRITED (.data r)) s = .next
      (if valWrited r then { received r s with ph := .readback } else abort .writeRejected .none (received r s)) := by
  simp only [exec, execRspWRITED, whenEnabled_of _ _ _ _ hs hr, rx_data _ _ _ hl, received]
  split <;> rfl

theorem currentChunk_received (r : Bytes) (s : State) : currentChunk (received r s) = currentChunk s := rfl

theorem execRspREADBACK_data (r c : Bytes) (s : State) (hs : s.ph = .readback) (hr : s.iop = .recv)
    (hl : r.length ≤ s.params.maxRespR) (hc : currentChunk s = .ok c) :
    exec (.rspREADBACK (.data r)) s = .next
      (if valRbShape s.params r s.clen.toNat then
        if valRbVerify s.params r (buildRef s.cks s.addr c) then advance (received r s)
        else abort .verifyMismatch .none (received r s)
       else abort .readbackShapeMismatch .none (received r s)) := by
  have hc' : currentChunk
      { s with iop := .send, resp := memPutBytes s.resp 0 r, respLen := r.length } = .ok c := hc
  simp only [exec, execRspREADBACK, whenEnabled_of _ _ _ _ hs hr, rx_data _ _ _ hl, received, hc']
  split
  · split <;> rfl
  · rfl

/-- The end of a verified chunk (41_session.md R214, R224, R226). -/
theorem advance_eq (s : State) :
    advance s = { s with
      addr := (s.addr + s.clen.toNat) % 2 ^ s.params.addrW
      progress := BitVec.ofNat 7 (progressPct ((s.addr + s.clen.toNat) % 2 ^ s.params.addrW) s.fsize)
      trace := s.trace ++
        [.progress (BitVec.ofNat 7 (progressPct ((s.addr + s.clen.toNat) % 2 ^ s.params.addrW) s.fsize))]
      ph := .fetch } := rfl

end Sys2Proof.Machine
end

