-- ==== Sys2Proof/Laws/Engine.lean ====
section
/-! SUPPORT. The ends of a step, said once: what step selection gives, what a response can do, the ends of an engine step,
and those of a step with the Host's move. An invariant's proof goes by cases over `step_ends` and unfolds no meaning. -/

namespace Sys2Proof.Machine
open Sys2Proof

/-- The response of a phase. -/
def responseOf : Phase → Option (ReadResult → Instr)
  | .handshake => some .rspHELLO
  | .info => some .rspINFO
  | .model => some .rspMODEL
  | .erase => some .rspERASED
  | .write => some .rspWRITED
  | .readback => some .rspREADBACK
  | .idle => none
  | .fetch => none
  | .done => none
  | .aborted => none
  | .refused => none

/-- The response instructions of a string. -/
def responses (r : Bytes) : List Instr :=
  [.rspHELLO (.data r), .rspINFO (.data r), .rspMODEL (.data r), .rspERASED (.data r), .rspWRITED (.data r),
    .rspREADBACK (.data r)]

theorem responseOf_spec (ph : Phase) (mk : ReadResult → Instr) (res : ReadResult) (h : responseOf ph = some mk) :
    iopOf (mk res) = .recv ∧ phaseOf (mk res) = ph ∧ isTransaction ph = true := by
  unfold responseOf at h
  split at h <;> simp at h <;> subst h <;> simp [iopOf, phaseOf, isTransaction]

theorem responseOf_data (ph : Phase) (mk : ReadResult → Instr) (r : Bytes) (h : responseOf ph = some mk) :
    mk (.data r) ∈ responses r := by
  unfold responseOf at h
  split at h <;> simp at h <;> subst h <;> simp [responses]

theorem responseOf_ioError (ph : Phase) (mk : ReadResult → Instr) (h : responseOf ph = some mk) :
    mk .ioError = .rspHELLO .ioError ∨ mk .ioError = .rspINFO .ioError ∨ mk .ioError = .rspMODEL .ioError ∨
      mk .ioError = .rspERASED .ioError ∨ mk .ioError = .rspWRITED .ioError ∨
      mk .ioError = .rspREADBACK .ioError := by
  unfold responseOf at h
  split at h <;> simp at h <;> subst h <;> simp

/-- The instructions the engine's registers give in the state `s`. -/
def EngineRequest (s : State) (i : Instr) : Prop :=
  i = .reqH ∨ i = .reqI ∨ i = operandsM s ∨ i = operandsFES s ∨
    (∃ c, currentChunk s = .ok c ∧ i = .reqW s.cks (wireAddr s.addr) c) ∨ i = operandsR s

/-- What step selection can give (41_session.md R200). -/
inductive Selected (s : State) : Selection → Prop
  | wait (hi : s.iop = .send) (hp : s.ph = .idle ∨ isTerminal s.ph = true) : Selected s .wait
  | fileRead (hi : s.iop = .send) (hp : s.ph = .fetch) : Selected s .fileRead
  | request (i : Instr) (hi : s.iop = .send) (hp : s.ph = phaseOf i) (hs : iopOf i = .send) (he : EngineRequest s i) :
      Selected s (.run i s)
  | response (mk : ReadResult → Instr) (res : ReadResult) (s1 : State) (hi : s.iop = .recv)
      (hm : responseOf s.ph = some mk) (hl : linkRead (readLimit s.params s.ph) s = (res, s1)) :
      Selected s (.run (mk res) s1)
  | noChunk (f : Fault) (hi : s.iop = .send) (hp : s.ph = .write) (hc : currentChunk s = .error f) :
      Selected s (.stop f)
  | unreachable (hi : s.iop = .recv) (hp : isTransaction s.ph = false) :
      Selected s (.stop (.unreachablePhase s.ph s.iop))

theorem select_selected (s : State) : Selected s (select s) := by
  unfold select
  have hrec : ∀ mk m, s.iop = .recv → responseOf s.ph = some mk → readLimit s.params s.ph = m →
      Selected s (receive m mk s) := by
    intro mk m hi hm hl
    unfold receive
    cases h : linkRead m s with
    | mk res s1 => exact .response mk res s1 hi hm (by rw [hl]; exact h)
  have hbad : ∀ p, s.ph = p → s.iop = .recv → isTransaction p = false →
      Selected s (.stop (.unreachablePhase p .recv)) := by
    intro p hp hi ht
    have h := Selected.unreachable (s := s) hi (by rw [hp]; exact ht)
    rw [hp, hi] at h; exact h
  split <;> rename_i hp hi
  case h_1 => exact .wait hi (by simp [hp])
  case h_10 => exact .fileRead hi hp
  case h_11 =>
    unfold transmit operandsW
    cases h : currentChunk s with
    | ok c => exact .request _ hi hp rfl (by simp [EngineRequest, h])
    | error f => exact .noChunk f hi hp h
  all_goals first
    | exact .request _ hi hp rfl (by simp [EngineRequest])
    | exact .wait hi (by simp [hp, isTerminal])
    | exact hrec _ _ hi (by simp [responseOf, hp]) (by simp [readLimit, hp])
    | exact hbad _ hp hi rfl

theorem engineStep_run (s s1 : State) (i : Instr) (h : select s = .run i s1) : engineStep s = exec i s1 := by
  unfold engineStep; rw [h]

/-- What a response to the string `r` leaves: an abort, or one of the six accepted ends (41_session.md R203, R205, R207,
R209, R212, R214). -/
def ResponseEnd (i : Instr) (r : Bytes) (s t : State) : Prop :=
  (∃ code, code ≠ .none ∧ code ≠ .ioError ∧ t = abort code .none (received r s)) ∨
  (i = .rspHELLO (.data r) ∧ valHello r = true ∧ t = { received r s with ph := .info }) ∨
  (i = .rspINFO (.data r) ∧ valInfo r = true ∧ r.length ≤ s.params.maxRespI ∧
    t = { received r s with info := memPutBytes s.info 0 r, infoLen := r.length, ph := .model }) ∨
  (i = .rspMODEL (.data r) ∧
    t = { received r s with ph := if s.cfgModel = .flash ∧ s.cfgErase = true then .erase else .fetch }) ∨
  (i = .rspERASED (.data r) ∧ t = { received r s with ph := .fetch }) ∨
  (i = .rspWRITED (.data r) ∧ t = { received r s with ph := .readback }) ∨
  (i = .rspREADBACK (.data r) ∧ t = advance (received r s) ∧
    ∃ c, currentChunk s = .ok c ∧ valRbVerify s.params r (buildRef s.cks s.addr c) = true)

/-- A response that answers a next state was run in its `(ph, iop)`, fits `RESP`, and has one of its ends. -/
theorem exec_response_next (i : Instr) (r : Bytes) (s t : State) (hi : i ∈ responses r) (h : exec i s = .next t) :
    r.length ≤ s.params.maxRespR ∧ s.ph = phaseOf i ∧ s.iop = .recv ∧ ResponseEnd i r s t := by
  unfold ResponseEnd
  simp only [responses, List.mem_cons, List.not_mem_nil, or_false] at hi
  have he := exec_enabled i s t h
  have hl : r.length ≤ s.params.maxRespR := by
    rcases hi with h' | h' | h' | h' | h' | h' <;> subst h' <;>
      simp only [exec, execRspHELLO, execRspINFO, execRspMODEL, execRspERASED, execRspWRITED, execRspREADBACK,
        whenEnabled_next, rx_next, reduceCtorEq, false_and, false_or, ReadResult.data.injEq] at h <;>
      (obtain ⟨_, x, e, hl, _⟩ := h; subst e; exact hl)
  rcases hi with h' | h' | h' | h' | h' | h' <;> subst h' <;> refine ⟨hl, he.1, he.2, ?_⟩
  · rw [execRspHELLO_data r s he.1 he.2 hl] at h
    cases h; split
    · next hv => exact .inr (.inl ⟨rfl, hv, rfl⟩)
    · exact .inl ⟨_, by simp, by simp, rfl⟩
  · by_cases hv : valInfo r = true
    · have hl2 : r.length ≤ s.params.maxRespI := by
        simp only [exec, execRspINFO, whenEnabled_next, rx_data _ _ _ hl, if_pos hv, memWrite_next] at h
        have := h.2.1
        simpa using this
      rw [execRspINFO_data r s he.1 he.2 hl hl2, if_pos hv] at h
      cases h; exact .inr (.inr (.inl ⟨rfl, hv, hl2, rfl⟩))
    · simp only [exec, execRspINFO, whenEnabled_next, rx_data _ _ _ hl, if_neg hv] at h
      cases h.2; exact .inl ⟨.noInfoResponse, by simp, by simp, rfl⟩
  · rw [execRspMODEL_data r s he.1 he.2 hl] at h
    cases h; split
    · exact .inr (.inr (.inr (.inl ⟨rfl, rfl⟩)))
    · exact .inl ⟨_, by simp, by simp, rfl⟩
  · rw [execRspERASED_data r s he.1 he.2 hl] at h
    cases h; split
    · exact .inr (.inr (.inr (.inr (.inl ⟨rfl, rfl⟩))))
    · exact .inl ⟨_, by simp, by simp, rfl⟩
  · rw [execRspWRITED_data r s he.1 he.2 hl] at h
    cases h; split
    · exact .inr (.inr (.inr (.inr (.inr (.inl ⟨rfl, rfl⟩)))))
    · exact .inl ⟨_, by simp, by simp, rfl⟩
  · cases hc : currentChunk s with
    | ok c =>
      rw [execRspREADBACK_data r c s he.1 he.2 hl hc] at h
      cases h; split
      · split
        · next hv => exact .inr (.inr (.inr (.inr (.inr (.inr ⟨rfl, rfl, c, rfl, hv⟩)))))
        · exact .inl ⟨_, by simp, by simp, rfl⟩
      · exact .inl ⟨_, by simp, by simp, rfl⟩
    | error f =>
      have hc' : currentChunk
          { s with iop := .send, resp := memPutBytes s.resp 0 r, respLen := r.length } = .error f := hc
      simp only [exec, execRspREADBACK, whenEnabled_next, rx_data _ _ _ hl, hc'] at h
      have h2 := h.2
      split at h2
      · cases h2
      · cases h2; exact .inl ⟨_, by simp, by simp, rfl⟩

/-- The state once a `LinkRead` has drawn: only the Link and the record differ. -/
def drawn (rs : List ReadResult) (n : Nat) (e : PortEvent) (s : State) : State :=
  { s with linkReads := rs, linkDraws := n, trace := s.trace ++ [e] }

/-- The ends of an engine step, whatever the Link and the File do. -/
inductive EngineEnd (s t : State) : Prop
  /-- No step is enabled. -/
  | wait (hi : s.iop = .send) (hp : s.ph = .idle ∨ isTerminal s.ph = true) (e : t = s)
  /-- FETCH at the end of the File. -/
  | done (hi : s.iop = .send) (hp : s.ph = .fetch) (hn : nextBytes s = [])
      (e : t = { s with trace := s.trace ++ [.file s.params.chunkSize []], ph := .done })
  /-- FETCH of a chunk. -/
  | fetched (hi : s.iop = .send) (hp : s.ph = .fetch) (hn : nextBytes s ≠ [])
      (e : t = { s with
        fcur := s.fcur + (nextBytes s).length
        trace := s.trace ++ [.file s.params.chunkSize (nextBytes s)]
        chunk := memPutBytes [] 0 (nextBytes s)
        clen := BitVec.ofNat 8 (nextBytes s).length
        cks := checksum (nextBytes s)
        ph := if s.cfgWrite then .write else .readback })
  /-- ERASE Tx with a count above 255. -/
  | refused (hi : s.iop = .send) (hp : s.ph = .erase) (hc : 255 < sectorCount s.params s.fsize)
      (e : t = refuse .sectorCountOver255 s)
  /-- A request the Link takes. -/
  | sent (i : Instr) (ws : List WriteResult) (n : Nat) (hi : s.iop = .send) (hp : s.ph = phaseOf i)
      (hs : iopOf i = .send) (hr : EngineRequest s i) (hc : ∀ a c, i = .reqFES a c → c ≤ 255)
      (hl : (encode i).length ≤ 14 + 3 * s.params.chunkSize)
      (e : t = { s with
        diagCmd := memPutBytes s.diagCmd 0 (encode i), diagCmdLen := (encode i).length
        linkWrites := ws, linkDraws := n, trace := s.trace ++ [.tx (encode i)], iop := .recv })
  /-- A request the Link does not take. -/
  | unsent (i : Instr) (ws : List WriteResult) (n : Nat) (hi : s.iop = .send) (hp : s.ph = phaseOf i)
      (hs : iopOf i = .send) (hr : EngineRequest s i) (hc : ∀ a c, i = .reqFES a c → c ≤ 255)
      (hl : (encode i).length ≤ 14 + 3 * s.params.chunkSize)
      (e : t = abort .ioError .linkWrite { s with
        diagCmd := memPutBytes s.diagCmd 0 (encode i), diagCmdLen := (encode i).length
        linkWrites := ws, linkDraws := n, trace := s.trace ++ [.txErr (encode i)] })
  /-- A read that fails. -/
  | unread (rs : List ReadResult) (n : Nat) (hi : s.iop = .recv) (hp : isTransaction s.ph = true)
      (e : t = abort .ioError .linkRead
        { drawn rs n (.rxErr (readLimit s.params s.ph)) s with iop := .send, respLen := 0 })
  /-- A response. -/
  | response (i : Instr) (r : Bytes) (rs : List ReadResult) (n : Nat) (hi : s.iop = .recv)
      (hp : isTransaction s.ph = true) (hpi : phaseOf i = s.ph) (hm : r.length ≤ readLimit s.params s.ph)
      (hl : r.length ≤ s.params.maxRespR)
      (e : ResponseEnd i r (drawn rs n (.rx (readLimit s.params s.ph) r) s) t)

theorem engineStep_ends (s t : State) (h : engineStep s = .next t) : EngineEnd s t := by
  have hs := select_selected s
  cases hs' : select s with
  | wait =>
    rw [hs'] at hs
    unfold engineStep at h; rw [hs'] at h; cases h; cases hs
    exact .wait ‹_› ‹_› rfl
  | stop f => unfold engineStep at h; rw [hs'] at h; cases h
  | fileRead =>
    rw [hs'] at hs
    unfold engineStep at h; rw [hs'] at h
    obtain ⟨hi, hp⟩ : s.iop = .send ∧ s.ph = .fetch := by cases hs; exact ⟨‹_›, ‹_›⟩
    rcases (fetchChunk_next s t).1 h with ⟨hn, e⟩ | ⟨hn, e⟩
    · exact .done hi hp hn e
    · exact .fetched hi hp hn e
  | run i s1 =>
    rw [hs'] at hs
    rw [engineStep_run s s1 i hs'] at h
    cases hs with
    | request _ hi hp hs he =>
      obtain ⟨-, -, ⟨start, count, rfl, hc, e⟩ | ⟨hc, h⟩⟩ := (exec_request_next i s t hs).1 h
      · refine .refused hi hp ?_ e
        simp [EngineRequest, operandsM, operandsFES, operandsR] at he
        omega
      · obtain ⟨hl, e⟩ := (tx_next _ _ _).1 h
        obtain ⟨ws, n, e' | e'⟩ := txSend_cases (encode i)
          { s with diagCmd := memPutBytes s.diagCmd 0 (encode i), diagCmdLen := (encode i).length }
        · exact .sent i ws n hi hp hs he hc hl (e.trans e')
        · exact .unsent i ws n hi hp hs he hc hl (e.trans e')
    | response mk res _ hi hm hl =>
      have hph := (responseOf_spec _ _ res hm).2
      obtain ⟨rs, n, ⟨r, hr, e⟩ | e⟩ := linkRead_cases (readLimit s.params s.ph) s
      · rw [hl] at e; cases e
        obtain ⟨hle, -, -, hend⟩ := exec_response_next _ r _ t (responseOf_data _ _ r hm) h
        exact .response (mk (.data r)) r rs n hi hph.2 hph.1 hr hle hend
      · rw [hl] at e; cases e
        have hx := exec_read_ioError (mk .ioError) (drawn rs n (.rxErr (readLimit s.params s.ph)) s)
          hph.1.symm hi (responseOf_ioError _ _ hm)
        have h' : exec (mk .ioError) (drawn rs n (.rxErr (readLimit s.params s.ph)) s) = .next t := h
        rw [hx] at h'
        cases h'
        exact .unread rs n hi hph.2 rfl

/-- The ends of a step: a move of the Host, or an end of the engine's step. -/
inductive StepEnd (s t : State) : Prop
  | terminate (ms : List (Option HostMove)) (hm : (hostTurn s).1 = some .terminate)
      (e : t = blockReset { s with hostMoves := ms })
  | start (ms : List (Option HostMove)) (cfg : StartCfg) (hm : (hostTurn s).1 = some (.start cfg)) (hp : s.ph = .idle)
      (e : t = startSession cfg { s with hostMoves := ms })
  | openFile (ms : List (Option HostMove)) (f : Bytes) (pos : Nat) (hp : isRunning s.ph = false)
      (e : t = { s with hostMoves := ms, file := f, fcur := pos })
  | openLink (ms : List (Option HostMove)) (ok : Bool) (hp : isRunning s.ph = false)
      (e : t = { s with hostMoves := ms, linkOpen := ok })
  | engine (ms : List (Option HostMove)) (hq : hostQuiet s) (e : EngineEnd { s with hostMoves := ms } t)

theorem step_ends (s t : State) (h : step s = .next t) : StepEnd s t := by
  obtain ⟨ms, e⟩ := hostTurn_state s
  rcases step_cases s with ⟨m, s2, h1, h2, h3⟩ | ⟨h1, h2⟩
  · rw [h3] at h; cases h
    rw [e] at h2
    cases m with
    | terminate => cases h2; exact .terminate ms h1 rfl
    | start cfg =>
      simp only [hostEffect] at h2
      split at h2
      · cases h2; exact .start ms cfg h1 ‹_› rfl
      · cases h2
    | openFile f pos =>
      simp only [hostEffect] at h2
      split at h2
      · cases h2; exact .openFile ms f pos ‹_› rfl
      · cases h2
    | openLink ok =>
      simp only [hostEffect] at h2
      split at h2
      · cases h2; exact .openLink ms ok ‹_› rfl
      · cases h2
  · rw [h2, e] at h
    exact .engine ms h1 (engineStep_ends _ _ h)

end Sys2Proof.Machine
end

