-- ==== Sys2Proof/Laws/PerInstr.lean ====
section
/-! SUPPORT. A statement for all instructions, made per instruction: the encoding of a well-formed instruction fits the
buffer it is put into, `DIAG_CMD` for a request and `RESP` for a response (20_memory.md R73, 10_state.md R41, R46). -/

namespace Sys2Proof.Laws
open Sys2Proof Sys2Proof.Machine

theorem encodeData_length (data : Bytes) : (encodeData data).length = 3 * data.length := by
  induction data with
  | nil => rfl
  | cons b data ih =>
    have h : encodeData (b :: data) = encodeByte b ++ encodeData data := rfl
    rw [h, List.length_append, ih, List.length_cons]
    show 3 + _ = _
    omega

/-- The legal ranges that bound a response. -/
theorem inRange_bounds (p : Params) (h : p.inRange = true) :
    6 ≤ p.maxRespH ∧ 2 ≤ p.maxRespM ∧ 7 ≤ p.maxRespW ∧ 18 + 3 * p.chunkSize ≤ p.maxRespR := by
  simp only [Params.inRange, Bool.and_eq_true, decide_eq_true_eq, beq_iff_eq] at h
  omega

theorem readLimitsFit_bounds (p : Params) (h : p.readLimitsFit = true) :
    p.maxRespI ≤ p.maxRespR ∧ p.maxRespFES ≤ p.maxRespR := by
  simp only [Params.readLimitsFit, Bool.and_eq_true, decide_eq_true_eq] at h
  omega

end Sys2Proof.Laws

namespace Sys2Proof.Laws.EncodingFits
open Sys2Proof Sys2Proof.Machine

/-- The encoding of a well-formed instruction fits its buffer. -/
def Statement (i : Instr) : Prop :=
  ∀ p : Params, p.inRange = true → p.readLimitsFit = true → i.wellFormed p = true →
    (encode i).length ≤ capacity p (if iopOf i = .send then .diagCmd else .resp)

theorem reqH : Statement .reqH := fun p _ _ _ => Nat.le_trans (by decide) (Nat.le_add_right 14 (3 * p.chunkSize))

theorem reqI : Statement .reqI := fun p _ _ _ => Nat.le_trans (by decide) (Nat.le_add_right 14 (3 * p.chunkSize))

theorem reqM (model : MemoryModel) : Statement (.reqM model) :=
  fun p _ _ _ => Nat.le_trans (show 4 ≤ 14 by decide) (Nat.le_add_right 14 (3 * p.chunkSize))

theorem reqFES (start : Byte) (count : Nat) : Statement (.reqFES start count) :=
  fun p _ _ _ => Nat.le_trans (show 11 ≤ 14 by decide) (Nat.le_add_right 14 (3 * p.chunkSize))

theorem reqW (cks : Byte) (addr : Nat) (data : Bytes) : Statement (.reqW cks addr data) := by
  intro p _ _ h
  simp only [Instr.wellFormed, Bool.and_eq_true, decide_eq_true_eq] at h
  have hb : (encodeByte cks).length = 3 := rfl
  have h8 : (encodeFixed8Digit addr).length = 8 := rfl
  simp only [encode, buildW, List.length_append, encodeData_length, hb, h8, List.length_cons, List.length_nil,
    iopOf, if_true, capacity]
  omega

theorem reqR (addr : Nat) (len : Byte) : Statement (.reqR addr len) :=
  fun p _ _ _ => Nat.le_trans (show 14 ≤ 14 by decide) (Nat.le_add_right 14 (3 * p.chunkSize))

theorem rspHELLO (res : ReadResult) : Statement (.rspHELLO res) := by
  intro p hp _ h
  cases res with
  | ioError => cases h
  | data r =>
    have hr : r = strHello := by simpa [Instr.wellFormed, valHello] using h
    have := inRange_bounds p hp
    subst hr
    show 6 ≤ p.maxRespR
    omega

theorem rspINFO (res : ReadResult) : Statement (.rspINFO res) := by
  intro p _ hf h
  cases res with
  | ioError => cases h
  | data r =>
    simp only [Instr.wellFormed, Bool.and_eq_true, decide_eq_true_eq] at h
    exact Nat.le_trans h.2 (readLimitsFit_bounds p hf).1

theorem rspMODEL (res : ReadResult) : Statement (.rspMODEL res) := by
  intro p hp _ h
  cases res with
  | ioError => cases h
  | data r =>
    have hl : r.length = 2 := by
      match r, h with
      | [_, _], _ => rfl
    have := inRange_bounds p hp
    show r.length ≤ p.maxRespR
    omega

theorem rspERASED (res : ReadResult) : Statement (.rspERASED res) := by
  intro p _ hf h
  cases res with
  | ioError => cases h
  | data r =>
    simp only [Instr.wellFormed, Bool.and_eq_true, decide_eq_true_eq] at h
    exact Nat.le_trans h.2 (readLimitsFit_bounds p hf).2

theorem rspWRITED (res : ReadResult) : Statement (.rspWRITED res) := by
  intro p hp _ h
  cases res with
  | ioError => cases h
  | data r =>
    have hr : r = strWrited := by simpa [Instr.wellFormed, valWrited] using h
    have := inRange_bounds p hp
    subst hr
    show 7 ≤ p.maxRespR
    omega

theorem rspREADBACK (res : ReadResult) : Statement (.rspREADBACK res) := by
  intro p hp _ h
  cases res with
  | ioError => cases h
  | data r =>
    have := inRange_bounds p hp
    simp only [Instr.wellFormed, isReadback, Bool.and_eq_true, decide_eq_true_eq, beq_iff_eq] at h
    show r.length ≤ p.maxRespR
    omega

end Sys2Proof.Laws.EncodingFits
end

