-- ==== Sys2Proof/Tests/Slice0.lean ====
section
/-! SUPPORT. The model's own tests: what WellFormed refuses, a written-out word for each constructor, the vectors of
95_test_vectors.md, and for each statement with hypotheses a state and operands that meet them. -/

namespace Sys2Proof.Tests
open Sys2Proof Sys2Proof.Machine

/-- The bytes of a string. -/
def asc (s : String) : Bytes := s.toList.map fun c => BitVec.ofNat 8 c.toNat

/-- A field of the next state an outcome answers. -/
def look {α : Type} (f : State → α) : Out → Option α
  | .next t => some (f t)
  | .fault _ => none
  | .refused _ => none

/-- The name of a decode's refusal. -/
def refusal {α : Type} : Except DecodeError α → Option DecodeError
  | .ok _ => none
  | .error e => some e

/-! ## WellFormed refuses -/

theorem test_wf_FES_start : Instr.wellFormed Params.source (.reqFES 1 1) = false := by decide
theorem test_wf_FES_count_zero : Instr.wellFormed Params.source (.reqFES 0 0) = false := by decide
theorem test_wf_FES_count_over : Instr.wellFormed Params.source (.reqFES 0 256) = false := by decide
theorem test_wf_W_address : Instr.wellFormed Params.source (.reqW 0 100000000 [0]) = false := by decide
theorem test_wf_W_empty : Instr.wellFormed Params.source (.reqW 0 0 []) = false := by decide
theorem test_wf_W_long : Instr.wellFormed Params.source (.reqW 0 0 (List.replicate 101 0)) = false := by decide
theorem test_wf_R_address : Instr.wellFormed Params.source (.reqR 100000000 1) = false := by decide
theorem test_wf_R_zero : Instr.wellFormed Params.source (.reqR 0 0) = false := by decide
theorem test_wf_R_long : Instr.wellFormed Params.source (.reqR 0 101) = false := by decide
theorem test_wf_HELLO : Instr.wellFormed Params.source (.rspHELLO (.data (asc "HELLO"))) = false := by decide
theorem test_wf_INFO_empty : Instr.wellFormed Params.source (.rspINFO (.data [])) = false := by decide
theorem test_wf_INFO_long : Instr.wellFormed Params.source (.rspINFO (.data (List.replicate 101 0))) = false := by
  decide
theorem test_wf_MODEL_digit : Instr.wellFormed Params.source (.rspMODEL (.data (asc "2\n"))) = false := by decide
theorem test_wf_MODEL_length : Instr.wellFormed Params.source (.rspMODEL (.data (asc "1\r\n"))) = false := by decide
theorem test_wf_ERASED : Instr.wellFormed Params.source (.rspERASED (.data (asc "ERASE\n"))) = false := by decide
theorem test_wf_ERASED_long :
    Instr.wellFormed Params.source (.rspERASED (.data (strErased ++ List.replicate 35 0))) = false := by decide
theorem test_wf_WRITED : Instr.wellFormed Params.source (.rspWRITED (.data (asc "WRITTEN\n"))) = false := by decide
theorem test_wf_READBACK_length :
    Instr.wellFormed Params.source (.rspREADBACK (.data (asc "......0020000000000100225\n"))) = false := by decide
theorem test_wf_READBACK_digit :
    Instr.wellFormed Params.source (.rspREADBACK (.data (asc "......00200000000001002A55\n"))) = false := by decide
theorem test_wf_failed_reads :
    [Instr.rspHELLO .ioError, .rspINFO .ioError, .rspMODEL .ioError, .rspERASED .ioError, .rspWRITED .ioError,
      .rspREADBACK .ioError].any (Instr.wellFormed Params.source) = false := by decide

/-! ## Decoding: a word for each constructor, its bytes written out from 30_encoding.md -/

/-- The bytes of `$H#` (R101, R150), the first lowest. -/
theorem test_decode_reqH : decodeTableWord 24 0x234824 = some .reqH := by decide

/-- The bytes of `$I#` (R102, R151), the first lowest. -/
theorem test_decode_reqI : decodeTableWord 24 0x234924 = some .reqI := by decide

/-- The bytes of `$M0#` (R103, 95_test_vectors.md P1), the first lowest. -/
theorem test_decode_reqM : decodeTableWord 32 0x23304D24 = some (.reqM .eeprom) := by decide

/-- The bytes of `$FES000255#` (R104, 95_test_vectors.md 2.3), the first lowest. -/
theorem test_decode_reqFES : decodeTableWord 88 0x2335353230303053454624 = some (.reqFES 0 255) := by decide

/-- The bytes of `$W00200000000001002255#` (R105, 95_test_vectors.md P1), the first lowest. -/
theorem test_decode_reqW : decodeTableWord 184 0x2335353232303031303030303030303030303230305724 = some (.reqW 2 0 [1, 2, 255]) := by decide

/-- The bytes of `$R00000200050#` (R106, 95_test_vectors.md 2.3), the first lowest. -/
theorem test_decode_reqR : decodeTableWord 112 0x2330353030303230303030305224 = some (.reqR 200 50) := by decide

/-- The bytes of `HELLO\n` (R111), the first lowest. -/
theorem test_decode_rspHELLO : decodeTableWord 48 0x0A4F4C4C4548 = some (.rspHELLO (.data strHello)) := by decide

/-- The bytes of `codeG v1\n` (R111, 95_test_vectors.md P1), the first lowest. -/
theorem test_decode_rspINFO : decodeTableWord 72 0x0A3176204765646F63 = some (.rspINFO (.data (asc "codeG v1\n"))) := by decide

/-- The bytes of `1\n` (R111, 95_test_vectors.md P2), the first lowest. -/
theorem test_decode_rspMODEL : decodeTableWord 16 0x0A31 = some (.rspMODEL (.data [0x31, 0x0A])) := by decide

/-- The bytes of `ERASED\n` (R111), the first lowest. -/
theorem test_decode_rspERASED : decodeTableWord 56 0x0A444553415245 = some (.rspERASED (.data (asc "ERASED\n"))) := by decide

/-- The bytes of `WRITED\n` (R111), the first lowest. -/
theorem test_decode_rspWRITED : decodeTableWord 56 0x0A444554495257 = some (.rspWRITED (.data strWrited)) := by decide

/-- The bytes of `......00200000000001002255\n` (R112, 95_test_vectors.md P1), the first lowest. -/
theorem test_decode_rspREADBACK : decodeTableWord 216 0x0A35353232303031303030303030303030303230302E2E2E2E2E2E = some (.rspREADBACK (.data (asc "......00200000000001002255\n"))) := by decide

theorem test_encode_W :
    encode (.reqW 171 23456789 [0xAB]) = asc "$W17123456789171#" := by decide
theorem test_encode_FES : encode (.reqFES 0 1) = asc "$FES000001#" := by decide

/-- Bits a request has above its bytes are 0 (the opcode table gives `$M` 32 bits). -/
theorem test_decode_zeros_above : decodeTableWord 64 0x23314D24 = some (.reqM .flash) := by decide

/-- 30_encoding.md R103, R104, R108, R109: what is no request is refused by name. -/
theorem test_decode_refuses :
    refusal (decode Params.source (asc "$X#")) = some .unknownTag ∧
    refusal (decode Params.source (asc "$M2#")) = some .fieldRange ∧
    refusal (decode Params.source (asc "$FES001001#")) = some .fieldRange ∧
    refusal (decode Params.source (asc "$FES000000#")) = some .fieldRange ∧
    refusal (decode Params.source (asc "$FES000256#")) = some .fieldRange ∧
    refusal (decode Params.source (asc "$W00200000000#")) = some .fieldRange ∧
    refusal (decode Params.source (asc "$W0020000000001#")) = some .malformedField ∧
    refusal (decode Params.source (asc "$R00000000101#")) = some .fieldRange ∧
    refusal (decode Params.source (asc "$R0000A000001#")) = some .malformedField ∧
    refusal (decode Params.source (asc "$R000000")) = some .truncated ∧
    refusal (decode Params.source (asc "$H?")) = some .noEnd ∧
    refusal (decode Params.source (asc "$H#$I#")) = some .trailing ∧
    refusal (decode Params.source []) = some .noShape := by decide

/-! ## The codec's vectors (95_test_vectors.md 2.1 to 2.4) -/

theorem test_checksum :
    checksum [] = 0 ∧ checksum [1, 2, 255] = 2 ∧ checksum [255, 1] = 0 ∧ checksum [200, 100] = 44 ∧
    checksum (List.replicate 100 255) = 156 ∧
    checksum ((List.range 100).map (BitVec.ofNat 8)) = 86 := by decide

theorem test_fields :
    encodeByte 7 = asc "007" ∧ encodeByte 42 = asc "042" ∧ encodeByte 100 = asc "100" ∧
    encodeByte 255 = asc "255" ∧ encodeFixed8Digit 16777215 = asc "16777215" ∧
    encodeFixed8Digit 99999999 = asc "99999999" ∧ encodeFixed8Digit 100000000 = asc "00000000" ∧
    encodeFixed8Digit 123456789 = asc "23456789" ∧ encodeFixed8Digit 4294967295 = asc "94967295" ∧
    decodeFixed (asc "999") 3 = some 999 ∧ decodeFixed (asc "0A2") 3 = none ∧ decodeFixed (asc "42") 3 = none ∧
    decodeFixed (asc "00000200") 8 = some 200 ∧ modelDigit .eeprom = 0x30 ∧ modelDigit .flash = 0x31 := by decide

theorem test_formulas :
    [1, 3, 10, 50, 100].map (expectedLen Params.source) = [21, 27, 48, 168, 318] ∧
    [0, 250, 4095, 4096, 8192, 1044479, 1044480].map (sectorCount Params.source) = [1, 1, 1, 2, 3, 255, 256] ∧
    progressPct 100 250 = 40 ∧ progressPct 200 250 = 80 ∧ progressPct 250 250 = 100 ∧ progressPct 3 3 = 100 ∧
    buildRef 2 0 [1, 2, 255] = asc "00200000000001002255" := by decide

theorem test_validators_accept :
    valHello (asc "HELLO\n") = true ∧ valInfo (asc "\n") = true ∧ valModel (asc "1\n") 0x31 = true ∧
    valModel (asc "11") 0x31 = true ∧ valModel (asc "0\n") 0x30 = true ∧ valErased (asc "xxERASEDyy") = true ∧
    valErased (asc "NOT ERASED") = true ∧ valWrited (asc "WRITED\n") = true ∧
    valRbVerify Params.source (asc "HHHHHH00200000000001002255X") (asc "00200000000001002255") = true := by decide

theorem test_validators_reject :
    [asc "", asc "HELLO", asc "HELLO\r\n", asc "hello\n", asc "HELLO\nX"].any valHello = false ∧
    valInfo [] = false ∧
    [asc "0\n", asc "1", asc "1\r\n", asc "A\n", asc ""].any (fun r => valModel r 0x31) = false ∧
    [asc "erased\n", asc "ERASE\n", asc "", asc "FAIL\n"].any valErased = false ∧
    [asc "WRITED", asc "WRITTEN\n", asc "WRITED\r\n", asc ""].any valWrited = false ∧
    [asc "......00200000000001002254\n", asc "......00300000000001002255\n",
      asc "......00200000001001002255\n"].any
      (fun r => valRbVerify Params.source r (asc "00200000000001002255")) = false := by decide

/-- 60_exceptions.md R263: a user of `decodeFixed` aborts with code 9. -/
theorem test_malformed_field :
    look (fun t => (t.ph, t.err)) (withField (asc "0A2") 3 State.reset fun _ => .next State.reset) =
      some (.aborted, .malformedField) := by decide

/-! ## Steps (95_test_vectors.md 2.5) -/

/-- A state in a phase, the Link ready to take frames. -/
def sending (ph : Phase) : State := { State.reset with ph := ph, linkWrites := [.ok] }

/-- A state in a phase with an answer of the Link to come. -/
def reading (ph : Phase) (res : ReadResult) : State :=
  { State.reset with ph := ph, iop := .recv, linkReads := [res] }

/-- The chunk 01 02 FF at address 0 of the File 01 02 FF. -/
def withChunk (s : State) : State :=
  { s with
    chunk := [(0, 1), (1, 2), (2, 255)]
    clen := 3
    cks := 2
    fsize := 3
    file := [1, 2, 255]
    fcur := 3
    cfgWrite := true }

/-- A launched state: the File and the Link open. -/
def idle (p : Params) (isOpen : Bool) (f : Bytes) : State :=
  { State.reset with
    params := p
    linkOpen := isOpen
    file := f
    hostMoves := [some (.start ⟨true, true, .flash, 0⟩)] }

set_option maxRecDepth 2000 in
/-- T1. -/
theorem test_T1_start :
    look (fun t => (t.ph, t.iop, t.addr, t.fsize)) (step (idle Params.source true (List.replicate 250 0))) =
      some (.handshake, .send, 0, 250) := by decide
/-- T2. -/
theorem test_T2_start_closed :
    look (fun t => (t.ph, t.err, t.ioCause, t.diagCmdLen)) (step (idle Params.source false [0])) =
      some (.aborted, .ioError, .portNotOpen, 0) := by decide
/-- T3. -/
theorem test_T3_legacy :
    look (fun t => (t.ph, t.rreason, t.trace))
      (step (idle { Params.source with variant := .legacy } true [0])) =
      some (.refused, .variantLegacy, []) := by decide
/-- T4. -/
theorem test_T4_parameter :
    look (fun t => (t.ph, t.rreason)) (step (idle { Params.source with chunkSize := 101 } true [0])) =
      some (.refused, .parameterIllegal) := by decide
/-- T5. -/
theorem test_T5_handshake_unsent :
    look (fun t => (t.ph, t.err, t.ioCause, memGetBytes t.diagCmd 0 t.diagCmdLen))
      (step { sending .handshake with linkWrites := [.ioError] }) =
      some (.aborted, .ioError, .linkWrite, some (asc "$H#")) := by decide
/-- S5: after the handshake the next frame is `$I#`. -/
theorem test_I_sent :
    look (fun t => (t.ph, t.iop, t.trace)) (step (sending .info)) = some (.info, .recv, [.tx (asc "$I#")]) := by
  decide
/-- 41_session.md R206, the example. -/
theorem test_M_sent :
    look (fun t => (t.ph, t.iop, t.trace)) (step { sending .model with cfgModel := .flash }) =
      some (.model, .recv, [.tx (asc "$M1#")]) := by decide
/-- T6. -/
theorem test_T6_handshake_unread :
    look (fun t => (t.ph, t.err, t.ioCause, t.respLen)) (step { reading .handshake .ioError with respLen := 4 }) =
      some (.aborted, .ioError, .linkRead, 0) := by decide
/-- S6. -/
theorem test_S6_handshake_rejected :
    look (fun t => (t.ph, t.err, t.diagExp, t.diagAct, t.trace)) (step (reading .handshake (.data (asc "NO\n")))) =
      some (.aborted, .handshakeFailed, 6, 3, [.rx 20 (asc "NO\n")]) := by decide
/-- T8. -/
theorem test_T8_no_info :
    look (fun t => (t.ph, t.err, t.diagExp, t.diagAct)) (step (reading .info (.data []))) =
      some (.aborted, .noInfoResponse, 0, 0) := by decide
/-- T9. -/
theorem test_T9_info :
    look (fun t => (t.ph, t.iop, t.infoLen, memGetBytes t.info 0 9)) (step (reading .info (.data (asc "codeG v1\n")))) =
      some (.model, .send, 9, some (asc "codeG v1\n")) := by decide
/-- T10: EEPROM never erases. -/
theorem test_T10_model_eeprom :
    look State.ph (step { reading .model (.data (asc "0\n")) with cfgErase := true }) = some .fetch := by decide
/-- T12. -/
theorem test_T12_model_erases :
    look (fun t => (t.ph, t.iop))
      (step { reading .model (.data (asc "1\n")) with cfgModel := .flash, cfgErase := true }) =
      some (.erase, .send) := by decide
/-- T13. -/
theorem test_T13_erase_refused :
    look (fun t => (t.ph, t.rreason, t.trace)) (step { sending .erase with fsize := 1044480 }) =
      some (.refused, .sectorCountOver255, []) := by decide
/-- 41_session.md R208, the example. -/
theorem test_FES_sent :
    look (fun t => (t.iop, t.trace)) (step { sending .erase with fsize := 8192 }) =
      some (.recv, [.tx (asc "$FES000003#")]) := by decide
/-- T14. -/
theorem test_T14_erase_failed :
    look (fun t => (t.ph, t.err, t.diagAct)) (step (reading .erase (.data (asc "ERASE FAIL\n")))) =
      some (.aborted, .eraseFailed, 11) := by decide
/-- 41_session.md R209, the example. -/
theorem test_erased : look State.ph (step (reading .erase (.data (asc "ERASED\n")))) = some .fetch := by decide
/-- T15. -/
theorem test_T15_fetch :
    look (fun t => (t.ph, t.clen, t.cks, t.fcur))
      (step { State.reset with ph := .fetch, cfgWrite := true, file := [1, 2, 255] }) =
      some (.write, 3, 2, 3) := by decide
/-- T16. -/
theorem test_T16_fetch_verify_only :
    look State.ph (step { State.reset with ph := .fetch, file := [1, 2, 255] }) = some .readback := by decide
/-- T17. -/
theorem test_T17_done :
    look State.ph (step { State.reset with ph := .fetch, addr := 3, file := [1, 2, 255], fcur := 3 }) =
      some .done := by decide
/-- 41_session.md R211, the example. -/
theorem test_W_sent :
    look (fun t => (t.ph, t.iop, t.trace)) (step (withChunk (sending .write))) =
      some (.write, .recv, [.tx (asc "$W00200000000001002255#")]) := by decide
/-- T18. -/
theorem test_T18_write_rejected :
    look (fun t => (t.ph, t.err, t.diagExp, t.diagAct)) (step (reading .write (.data (asc "WRITED")))) =
      some (.aborted, .writeRejected, 7, 6) := by decide
/-- 41_session.md R213, the example. -/
theorem test_R_sent :
    look (fun t => (t.ph, t.iop, t.trace)) (step { sending .readback with addr := 200, clen := 50 }) =
      some (.readback, .recv, [.tx (asc "$R00000200050#")]) := by decide
/-- T20. -/
theorem test_T20_verify_mismatch :
    look (fun t => (t.ph, t.err, t.diagExp, t.diagAct, t.addr))
      (step (withChunk (reading .readback (.data (asc "......00200000000001002254\n"))))) =
      some (.aborted, .verifyMismatch, 27, 27, 0) := by decide
/-- T21. -/
theorem test_T21_verified :
    look (fun t => (t.ph, t.addr, t.progress, t.trace.getLast?))
      (step (withChunk (reading .readback (.data (asc "......00200000000001002255\n"))))) =
      some (.fetch, 3, 100, some (.progress 100)) := by decide
/-- T19: the length is checked first. -/
theorem test_T19_shape :
    look (fun t => (t.ph, t.err, t.diagExp, t.diagAct))
      (step (withChunk (reading .readback (.data (List.replicate 26 0x2E))))) =
      some (.aborted, .readbackShapeMismatch, 27, 26) := by decide
/-- 20_memory.md R78: a read returns at most what it asked for; 70_reset_and_hazards.md R311. -/
theorem test_read_limit :
    look (fun t => (t.ph, t.infoLen)) (step (reading .info (.data (List.replicate 120 0x41)))) =
      some (.model, 100) := by decide
/-- 60_exceptions.md R266: Terminate resets in any phase. -/
theorem test_terminate :
    look (fun t => (t.ph, t.iop, t.respLen))
      (step { reading .write (.data []) with hostMoves := [some .terminate], respLen := 6 }) =
      some (.idle, .send, 0) := by decide

/-! ## Witnesses: for each statement with hypotheses, a state and operands that meet them -/

theorem witness_ChecksumIsTheSumMod256 : List.Perm ([1, 255] : Bytes) [255, 1] := by decide

theorem witness_DecodeFixedGivesValueOrVerdict :
    decodeFixed (asc "999") 3 = some 999 ∧ 99999999 < 10 ^ 8 ∧ decodeFixed (asc "0A2") 3 = none := by decide

theorem witness_ReadbackChecksIgnoreHeaderAndTrailer : Params.source.inRange = true := by decide

/-- One well-formed instruction a row, at the ends of its operands' ranges. -/
theorem witness_DecodeInvertsEncode :
    [Instr.reqH, .reqI, .reqM .eeprom, .reqM .flash, .reqFES 0 1, .reqFES 0 255, .reqW 255 99999999 [0],
      .reqW 0 0 (List.replicate 100 255), .reqR 0 1, .reqR 99999999 100, .rspHELLO (.data strHello),
      .rspINFO (.data [0x24]), .rspINFO (.data (List.replicate 100 0)), .rspMODEL (.data [0x30, 0]),
      .rspMODEL (.data [0x31, 255]), .rspERASED (.data strErased), .rspWRITED (.data strWrited),
      .rspREADBACK (.data (asc "......00200000000001002255X"))].all (Instr.wellFormed Params.source) = true := by
  decide

theorem witness_RequestFramesHaveTheFrameStructure :
    Instr.wellFormed Params.source (.reqW 2 0 [1, 2, 255]) = true ∧ iopOf (.reqW 2 0 [1, 2, 255]) = .send := by decide

theorem witness_DecodedStringsAreEncodings :
    decodeRequest Params.source (asc "$H#$I#") = .ok (.reqH, asc "$I#") ∧
    decode Params.source (asc "$R00000200050#") = .ok (.reqR 200 50) := ⟨rfl, rfl⟩

/-- At the end of a buffer: 2 bytes at 98 of the 100 of `CHUNK`. -/
theorem witness_WrittenBytesReadBackAndTheRestStay :
    ∃ t, memWrite State.reset .chunk 98 [1, 2] (fun s1 => .next s1) = .next t := ⟨_, rfl⟩

theorem witness_ResetAndTerminateGiveTheResetValues :
    (hostTurn { sending .write with hostMoves := [some .terminate] }).1 = some .terminate := rfl

theorem idle_length (n : Nat) : (idle Params.source true (List.replicate n 0)).file.length = n :=
  List.length_replicate

/-- The five clauses, the sizes at the boundary of `FSIZE`'s width. -/
theorem witness_StartFollowsItsChecksInOrder :
    ((idle Params.source true []).ph = .idle ∧ (idle Params.source true []).iop = .send) ∧
    (idle { Params.source with variant := .legacy } true []).params.variant = .legacy ∧
    (idle { Params.source with chunkSize := 101 } true []).params.inRange = false ∧
    Params.source.variant = .canonical ∧ Params.source.inRange = true ∧
    2 ^ Params.source.fsizeW ≤
      (idle Params.source true (List.replicate (2 ^ Params.source.fsizeW) 0)).file.length ∧
    (idle Params.source true (List.replicate (2 ^ Params.source.fsizeW - 1) 0)).file.length <
      2 ^ Params.source.fsizeW ∧
    (idle Params.source true []).linkOpen = true ∧ (idle Params.source false []).linkOpen = false := by
  refine ⟨by decide, by decide, by decide, by decide, by decide, ?_, ?_, rfl, rfl⟩
  · rw [idle_length]
  · rw [idle_length]; exact Nat.sub_lt (Nat.two_pow_pos _) Nat.one_pos

theorem witness_ConfigurationIsReadOnlyAfterStart :
    (∃ t, step (sending .info) = .next t) ∧ (sending .info).ph ≠ .idle ∧
    (hostTurn (sending .info)).1 ≠ some .terminate := ⟨⟨_, rfl⟩, by decide, by decide⟩

/-- Every phase of a request, with a chunk of full length and the largest count. -/
theorem witness_RequestsHandTheirFrameOver :
    (∀ ph, (sending ph).ph = ph ∧ (sending ph).iop = .send ∧
      drawWrite (sending ph) = (.ok, { sending ph with linkWrites := [] })) ∧
    (List.replicate 100 (0 : Byte)).length ≤ (sending .write).params.chunkSize ∧ 255 ≤ 255 := by
  exact ⟨fun _ => ⟨rfl, rfl, rfl⟩, by decide, by decide⟩

theorem witness_FailedFramesAbort :
    ∀ ph, { sending ph with linkWrites := [.ioError] }.ph = ph ∧
      { sending ph with linkWrites := [.ioError] }.iop = .send ∧
      drawWrite { sending ph with linkWrites := [.ioError] } = (.ioError, { sending ph with linkWrites := [] }) :=
  fun _ => ⟨rfl, rfl, rfl⟩

theorem witness_EngineBuildsFramesFromItsRegisters :
    (∀ ph, hostQuiet (withChunk (sending ph)) ∧ (withChunk (sending ph)).ph = ph ∧
      (withChunk (sending ph)).iop = .send ∧
      drawWrite (hostTurn (withChunk (sending ph))).2 = (.ok, { withChunk (sending ph) with linkWrites := [] })) ∧
    currentChunk (withChunk (sending .write)) = .ok [1, 2, 255] := ⟨fun _ => ⟨trivial, rfl, rfl, rfl⟩, rfl⟩

/-- The two sizes at the boundary. -/
theorem witness_EraseCountAbove255IsRefused :
    ∀ n : Nat, hostQuiet { sending .erase with fsize := n } ∧
      { sending .erase with fsize := n }.params.inRange = true ∧
      drawWrite (hostTurn { sending .erase with fsize := n }).2 =
        (.ok, { sending .erase with fsize := n, linkWrites := [] }) ∧
      ({ sending .erase with fsize := n }.fsize = n) ∧ 1044480 ≤ 1044480 ∧ 1044479 < 1044480 :=
  fun _ => ⟨trivial, rfl, rfl, rfl, by decide, by decide⟩

/-- A frame sent, one not sent, and a refusal. -/
theorem witness_RequestsTouchOnlyTheirFrame :
    (∃ t, exec (.reqR 0 1) (sending .readback) = .next t) ∧
    (∃ t, exec .reqH { sending .handshake with linkWrites := [.ioError] } = .next t ∧ t.ph = .aborted) ∧
    ∃ t, exec (.reqFES 0 256) (sending .erase) = .next t ∧ t.ph = .refused := ⟨⟨_, rfl⟩, ⟨_, rfl, rfl⟩, ⟨_, rfl, rfl⟩⟩

/-- A state of each response, and strings at the ends of their lengths. -/
theorem witness_HandshakeResponse :
    (reading .handshake .ioError).ph = .handshake ∧ (reading .handshake .ioError).iop = .recv ∧
    strHello.length ≤ Params.source.maxRespR ∧ ([] : Bytes) ≠ strHello := by decide

theorem witness_InfoResponse :
    (reading .info .ioError).ph = .info ∧ (reading .info .ioError).iop = .recv ∧
    (List.replicate 100 (0 : Byte)).length ≤ Params.source.maxRespI ∧
    (List.replicate 100 (0 : Byte)).length ≤ Params.source.maxRespR ∧ List.replicate 100 (0 : Byte) ≠ [] := by decide

theorem witness_ModelResponse :
    (∀ m e, { reading .model .ioError with cfgModel := m, cfgErase := e }.ph = .model ∧
      { reading .model .ioError with cfgModel := m, cfgErase := e }.iop = .recv) ∧
    (∃ b, asc "1\n" = [modelDigit .flash, b]) ∧ ¬ ∃ b, asc "1\r\n" = [modelDigit .flash, b] :=
  ⟨fun _ _ => ⟨rfl, rfl⟩, ⟨0x0A, rfl⟩, fun ⟨_, h⟩ => by simpa [asc] using congrArg List.length h⟩

theorem witness_EraseResponse :
    (reading .erase .ioError).ph = .erase ∧ (reading .erase .ioError).iop = .recv ∧
    asc "NOT ERASED" = asc "NOT " ++ strErased ++ [] ∧ ¬ ∃ a b : Bytes, [] = a ++ strErased ++ b :=
  ⟨rfl, rfl, rfl, fun ⟨_, _, h⟩ => by simpa [strErased] using congrArg List.length h⟩

theorem witness_WriteResponse :
    (reading .write .ioError).ph = .write ∧ (reading .write .ioError).iop = .recv ∧
    strWrited.length ≤ Params.source.maxRespR ∧ asc "WRITED" ≠ strWrited := by decide

/-- The right length and one less; the reference string and another; `FSIZE` 3 and 0. -/
theorem witness_ReadbackResponse :
    (withChunk (reading .readback .ioError)).ph = .readback ∧ (withChunk (reading .readback .ioError)).iop = .recv ∧
    Params.source.inRange = true ∧ currentChunk (withChunk (reading .readback .ioError)) = .ok [1, 2, 255] ∧
    (withChunk (reading .readback .ioError)).clen.toNat = 3 ∧ (withChunk (reading .readback .ioError)).fsize ≠ 0 ∧
    (asc "......00200000000001002255\n").length = 18 + 3 * 3 ∧ (asc "......00200000000001002255").length ≠ 18 + 3 * 3 ∧
    ((asc "......00200000000001002255\n").drop 6).dropLast = buildRef 2 0 [1, 2, 255] ∧
    ((asc "......00200000000001002254\n").drop 6).dropLast ≠ buildRef 2 0 [1, 2, 255] :=
  ⟨rfl, rfl, by decide, rfl, by decide, by decide, by decide, by decide, by decide, by decide⟩

theorem witness_AbortEntryRecordsTheCause : (withChunk State.reset).params.inRange = true := by decide

/-- One byte more than each buffer holds, and a chunk that has no value. -/
theorem witness_StringsThatDoNotFitStop :
    (∀ ph, (reading ph .ioError).ph = ph ∧ (reading ph .ioError).iop = .recv) ∧
    Params.source.maxRespR < (List.replicate 501 (0 : Byte)).length ∧
    Params.source.maxRespI < (List.replicate 101 (0 : Byte)).length ∧
    (List.replicate 101 (0 : Byte)).length ≤ Params.source.maxRespR ∧
    (List.replicate 21 (0 : Byte)).length = expectedLen Params.source 1 ∧
    currentChunk { reading .readback .ioError with clen := 1 } = .error (.noValue .chunk) ∧
    Params.source.chunkSize < (List.replicate 101 (0 : Byte)).length := by
  refine ⟨fun _ => ⟨rfl, rfl⟩, ?_, ?_, ?_, ?_, rfl, ?_⟩ <;> rw [List.length_replicate] <;> decide

/-- Each response, accepted. -/
theorem witness_ResponsesTouchOnlyTheirBuffer :
    (∃ t, exec (.rspINFO (.data (asc "x"))) (reading .info .ioError) = .next t) ∧
    (∃ t, exec (.rspHELLO (.data [])) (reading .handshake .ioError) = .next t ∧ t.ph = .aborted) ∧
    ∃ t, exec (.rspWRITED (.data strWrited)) (reading .write .ioError) = .next t ∧ t.ph ≠ .aborted :=
  ⟨⟨_, rfl⟩, ⟨_, rfl, rfl⟩, ⟨_, rfl, by decide⟩⟩

theorem witness_InstructionsStopOutsideTheirPhase :
    ¬ (State.reset.ph = phaseOf .reqH ∧ State.reset.iop = iopOf .reqH) := by decide

/-- A FETCH in the File, and one at its end. -/
theorem witness_FetchLoadsAChunkOrEndsTheSession :
    hostQuiet (withChunk (sending .fetch)) ∧ (withChunk (sending .fetch)).ph = .fetch ∧
    (withChunk (sending .fetch)).iop = .send ∧ (withChunk (sending .fetch)).params.chunkSize ≤ 100 ∧
    ((withChunk (sending .fetch)).file.drop 3).take 100 = [] ∧
    (({ withChunk (sending .fetch) with fcur := 0 }).file.drop 0).take 100 ≠ [] := by
  exact ⟨trivial, rfl, rfl, by decide, rfl, by decide⟩

/-- A request and a response. -/
theorem witness_StepRunsTheDecodedInstruction :
    (hostQuiet (sending .info) ∧ wireBytes (hostTurn (sending .info)).2 = some (asc "$I#") ∧
      decodeAt (sending .info).params .info .send (asc "$I#") = .ok .reqI) ∧
    (hostQuiet (reading .info (.data [65])) ∧
      wireBytes (hostTurn (reading .info (.data [65]))).2 = some [65] ∧
      decodeAt Params.source .info .recv [65] = .ok (.rspINFO (.data [65]))) :=
  ⟨⟨trivial, rfl, rfl⟩, trivial, rfl, rfl⟩

theorem witness_PlacedWordsAreTheNextInstruction :
    (withChunk (sending .write)).params = Params.source ∧ decodeTableWord 24 0x234824 = some .reqH := by decide

theorem witness_WithoutAnEnabledStepNothingChanges :
    hostQuiet (sending .aborted) ∧ (sending .aborted).iop = .send ∧ isTerminal (sending .aborted).ph = true ∧
    hostQuiet { State.reset with hostMoves := [none] } ∧ State.reset.ph = .idle := ⟨trivial, rfl, rfl, trivial, rfl⟩

/-- A Terminate, a Start, and an engine step. -/
theorem witness_PhasesFollowTheLinearOrder :
    (∃ t, step { sending .done with hostMoves := [some .terminate] } = .next t) ∧
    (∃ t, step (idle Params.source true [0]) = .next t) ∧ ∃ t, step (withChunk (sending .write)) = .next t :=
  ⟨⟨_, rfl⟩, ⟨_, rfl⟩, ⟨_, rfl⟩⟩

/-- A step of each clause. -/
theorem witness_PortOperationsOfAStep :
    (∀ ph, hostQuiet (withChunk (sending ph))) ∧ (∃ t, step (sending .done) = .next t) ∧
    (∃ t, step (withChunk (sending .fetch)) = .next t) ∧ (∃ t, step (withChunk (sending .write)) = .next t) ∧
    hostQuiet (withChunk (reading .readback .ioError)) ∧
    (∃ t, step (withChunk (reading .readback .ioError)) = .next t) ∧
    ∃ t, step (withChunk (reading .readback (.data (asc "......00200000000001002255\n")))) = .next t :=
  ⟨fun _ => trivial, ⟨_, rfl⟩, ⟨_, rfl⟩, ⟨_, rfl⟩, trivial, ⟨_, rfl⟩, ⟨_, rfl⟩⟩

/-- A state inside a session that writes and erases a 1-byte File on FLASH, in each of its phases. -/
def running (ph : Phase) (iop : IoPhase) : State :=
  { State.reset with
    ph := ph
    iop := iop
    cfgWrite := true
    cfgErase := true
    cfgModel := .flash
    fsize := 1
    chunk := [(0, 5)]
    clen := 1
    cks := 5
    linkWrites := [.ok]
    linkReads := [.data (asc "......00500000000005\n")]
    file := [5]
    fcur := if ph = .write ∨ ph = .readback then 1 else 0 }

theorem running_inv (ph : Phase) (iop : IoPhase) (h : isTransaction ph = true ∨ ph = .fetch ∧ iop = .send) :
    Inv (running ph iop) where
  forms b := by cases b <;> rfl
  bounds b := by cases b <;> rfl
  held := of_decide_eq_true rfl
  widths := of_decide_eq_true rfl
  clenRange := of_decide_eq_true rfl
  errIff := ⟨fun h' => absurd rfl h', fun h' => by
    have : ph = .aborted := h'
    subst this; rcases h with h | ⟨h, _⟩ <;> cases h⟩
  causeOnly h' := absurd rfl h'
  reasonIff := ⟨fun h' => absurd rfl h', fun h' => by
    have : ph = .refused := h'
    subst this; rcases h with h | ⟨h, _⟩ <;> cases h⟩
  sendOutside h' := by
    have : isTransaction ph = false := h'
    rcases h with h | h
    · rw [this] at h; cases h
    · exact h.2
  accepted _ _ := ⟨rfl, rfl, rfl⟩
  eraseGate _ := ⟨rfl, rfl⟩
  writeGate _ := rfl
  loaded _ := ⟨of_decide_eq_true rfl, [5], rfl, rfl⟩

theorem running_fileInv (ph : Phase) (iop : IoPhase) : FileInv (running ph iop) where
  size _ := rfl
  before _ h1 h2 := by
    have h1 : ph ≠ .write := h1
    have h2 : ph ≠ .readback := h2
    show (if ph = .write ∨ ph = .readback then 1 else 0) = 0
    rw [if_neg (by tauto)]
  after h := by
    have h : ph = .write ∨ ph = .readback := h
    show (if ph = .write ∨ ph = .readback then 1 else 0) = 0 + 1 ∧
      (if ph = .write ∨ ph = .readback then 1 else 0) ≤ 1
    rw [if_pos h]; decide
  chunkIs _ := rfl
  percent := of_decide_eq_true rfl

theorem running_launched (ph : Phase) (iop : IoPhase) : launched (running ph iop) := fun _ h => by cases h

theorem witness_EngineEmitsOnlyLegalRequests :
    Inv (running .write .send) ∧ ∃ t, step (running .write .send) = .next t ∧
      .tx (asc "$W00500000000005#") ∈ newEvents (running .write .send) t :=
  ⟨running_inv _ _ (.inl rfl), _, rfl, by decide⟩

/-- An erase frame and a write frame. -/
theorem witness_NoEraseOrWriteFrameWhenDisabled :
    (Inv (running .erase .send) ∧ ∃ t, step (running .erase .send) = .next t ∧
      .tx (asc "$FES000001#") ∈ newEvents (running .erase .send) t ∧
      (asc "$FES000001#").take 2 = [chDollar, chF]) ∧
    Inv (running .write .send) ∧ ∃ t, step (running .write .send) = .next t ∧
      .tx (asc "$W00500000000005#") ∈ newEvents (running .write .send) t ∧
      (asc "$W00500000000005#").take 2 = [chDollar, chW] :=
  ⟨⟨running_inv _ _ (.inl rfl), _, rfl, by decide, by decide⟩, running_inv _ _ (.inl rfl), _, rfl, by decide, by decide⟩

theorem witness_EveryStepKeepsTheInvariant :
    Inv (running .fetch .send) ∧ ∃ t, step (running .fetch .send) = .next t :=
  ⟨running_inv _ _ (.inr ⟨rfl, rfl⟩), _, rfl⟩

theorem witness_NoStepFromTheInvariantStops :
    Inv (running .readback .recv) ∧ (running .readback .recv).params.readLimitsFit = true :=
  ⟨running_inv _ _ (.inl rfl), by decide⟩

theorem witness_EveryStepKeepsTheFileInvariant :
    Inv (running .readback .recv) ∧ FileInv (running .readback .recv) ∧ launched (running .readback .recv) ∧
    ∃ t, step (running .readback .recv) = .next t ∧ t.ph = .fetch :=
  ⟨running_inv _ _ (.inl rfl), running_fileInv _ _, running_launched _ _, _, rfl, rfl⟩

theorem witness_FetchTakesTheChunkAtTheAddress :
    Inv (running .fetch .send) ∧ FileInv (running .fetch .send) ∧ hostQuiet (running .fetch .send) ∧
    ∃ t, step (running .fetch .send) = .next t ∧ t.ph ≠ .done :=
  ⟨running_inv _ _ (.inr ⟨rfl, rfl⟩), running_fileInv _ _, trivial, _, rfl, by decide⟩

theorem witness_VerifiedChunksAdvanceAndReport :
    Inv (running .readback .recv) ∧ FileInv (running .readback .recv) ∧ hostQuiet (running .readback .recv) ∧
    ∃ t, step (running .readback .recv) = .next t ∧ t.ph = .fetch ∧ t.fcur = t.file.length :=
  ⟨running_inv _ _ (.inl rfl), running_fileInv _ _, trivial, _, rfl, rfl, rfl⟩

/-- The state after the 1-byte File's one chunk. -/
def atEnd : State := { running .fetch .send with addr := 1, fcur := 1, progress := 100 }

theorem witness_DoneMeansTheFileIsExhausted :
    Inv atEnd ∧ FileInv atEnd ∧ ∃ t, step atEnd = .next t ∧ atEnd.ph ≠ .done ∧ t.ph = .done := by
  have h := running_inv .fetch .send (.inr ⟨rfl, rfl⟩)
  refine ⟨⟨h.forms, h.bounds, h.held, by decide, h.clenRange, h.errIff, h.causeOnly, h.reasonIff, h.sendOutside,
    h.accepted, h.eraseGate, h.writeGate, h.loaded⟩, ⟨fun _ => rfl, fun _ _ _ => rfl, ?_, ?_, by decide⟩,
    _, rfl, by decide, rfl⟩
  · rintro (h | h) <;> cases h
  · rintro (h | h) <;> cases h

theorem witness_EverySessionEnds :
    Inv (running .handshake .send) ∧ (running .handshake .send).params.readLimitsFit = true ∧
    (running .handshake .send).hostMoves = [] ∧ isRunning (running .handshake .send).ph = true :=
  ⟨running_inv _ _ (.inl rfl), by decide, rfl, rfl⟩

/-- A 2-byte File from offset 0, and from its end; the shortest and the longest info text and erase answer. -/
theorem witness_AGoodDeviceLeadsToDone :
    Params.source.variant = .canonical ∧ Params.source.inRange = true ∧ Params.source.readLimitsFit = true ∧
    ([7, 9] : Bytes).length < 2 ^ Params.source.fsizeW ∧ 0 < 2 ^ Params.source.addrW ∧ 3 < 2 ^ Params.source.addrW ∧
    (erases ⟨true, true, .flash, 0⟩ = true ∧ ([7, 9] : Bytes).length < 1044480) ∧
    (1 ≤ ([0] : Bytes).length ∧ (List.replicate 100 (0 : Byte)).length ≤ Params.source.maxRespI) ∧
    (strErased ++ List.replicate 34 0).length ≤ Params.source.maxRespFES ∧ valErased strErased = true ∧
    valErased (strErased ++ List.replicate 34 0) = true ∧ (asc "......").length = 6 := by decide

/-- A move to open, in a session and after one. -/
theorem witness_PortsAreHeldExactlyDuringASession :
    (isRunning (sending .info).ph = true ∧ ∃ t, step (sending .info) = .next t) ∧
    ({ sending .info with hostMoves := [some (.openLink false)] } : State).hostMoves = some (.openLink false) :: [] ∧
    ({ sending .done with hostMoves := [some (.openFile [1] 0)] } : State).hostMoves = some (.openFile [1] 0) :: [] ∧
    isTerminal (sending .done).ph = true :=
  ⟨⟨rfl, _, rfl⟩, rfl, rfl, rfl⟩

/-- The File and the Link are released when a session ends (60_exceptions.md R283). -/
theorem test_aborted_session_releases_file :
    step { sending .aborted with hostMoves := [some (.openFile [1] 0)] } =
      .next { sending .aborted with hostMoves := [], file := [1], fcur := 0 } := rfl

end Sys2Proof.Tests
end

