-- ==== Sys2Proof/Proofs/Buffers.lean ====
section
/-! PROOF. What a `MemWrite` that answers a next state leaves in the buffers (00_scope.md R11). -/

namespace Sys2Proof.Proofs
open Sys2Proof Sys2Proof.Machine

/-- Writing a string keeps every byte below it and every byte at or above its end. -/
theorem memGet_memPutBytes_outside (m : Memory) (i a : Nat) (v : Bytes) (h : a < i ∨ i + v.length ≤ a) :
    memGet (memPutBytes m i v) a = memGet m a := by
  rw [memGet_memPutBytes, if_neg (by omega)]

/-- Settles O11: the next state is the old one with the string put into its one buffer, and each part is that write's
law. -/
theorem writtenBytesReadBackAndTheRestStay : Obligations.WrittenBytesReadBackAndTheRestStay := by
  intro s t b i v h
  obtain ⟨hfits, ht⟩ := (memWrite_next s t b i v _).mp h
  obtain rfl : setBuf s b (memPutBytes (bufOf s b) i v) = t := Host.Outcome.next.inj ht
  refine ⟨memRead_setBuf s b i v hfits, fun a ha => ?_, fun b' hb => bufOf_setBuf_other s b b' _ hb⟩
  rw [bufOf_setBuf_same, memGet_memPutBytes_outside _ i a v ha]

end Sys2Proof.Proofs
end

