-- ==== Sys2Proof/Proofs/StatusAndReset.lean ====
section
/-! PROOF. The codes the status port reads (10_state.md R30, R43, R44, R47), and the two invariants right after reset
(R55, 70_reset_and_hazards.md R300). -/

namespace Sys2Proof.Proofs
open Sys2Proof Sys2Proof.Machine

/-- Settles O38: the four code tables and the three exit statuses, each read off its function. -/
theorem statusCodesAreThoseOfTheTables : Obligations.StatusCodesAreThoseOfTheTables :=
  ⟨by decide, by decide, by decide, by decide, rfl, rfl, rfl⟩

/-- Settles O39: at reset the buffers are empty, the length registers are 0, and `IDLE` is none of the phases a clause
speaks of. -/
theorem invariantHoldsAtReset : Obligations.InvariantHoldsAtReset where
  forms b := by cases b <;> rfl
  bounds b := by cases b <;> rfl
  held := by decide
  widths := by decide
  clenRange := by decide
  errIff := by decide
  causeOnly := by decide
  reasonIff := by decide
  sendOutside _ := rfl
  accepted h := absurd rfl h
  eraseGate := nofun
  writeGate := nofun
  loaded := nofun

/-- Outside a session the File's invariant asks for a percentage only. -/
theorem fileInv_of_not_running {s : State} (hr : isRunning s.ph = false) (hp : s.progress.toNat ≤ 100) :
    FileInv s where
  size h := by simp [hr] at h
  before h := by simp [hr] at h
  after h := by rcases h with h | h <;> simp [h, isRunning] at hr
  chunkIs h := by rcases h with h | h <;> simp [h, isRunning] at hr
  percent := hp

/-- Settles O42: no session runs at reset, and `PROGRESS` is 0. -/
theorem fileInvariantHoldsAtReset : Obligations.FileInvariantHoldsAtReset :=
  fileInv_of_not_running rfl (by decide)

end Sys2Proof.Proofs
end

