-- ==== Sys2Proof/Proofs/Configuration.lean ====
section
/-! PROOF. What an engine step leaves unchanged: the parameters, the configuration, FSIZE and the File (10_state.md R32
to R37, 00_scope.md R7, 60_exceptions.md R283). -/

namespace Sys2Proof.Proofs
open Sys2Proof Sys2Proof.Machine

/-- The parameters and the registers that only START writes. -/
def configuration (s : State) : Params × Bool × Bool × MemoryModel × Variant × Nat :=
  (s.params, s.cfgWrite, s.cfgErase, s.cfgModel, s.cfgVariant, s.fsize)

theorem configuration_eq_iff (s t : State) :
    configuration t = configuration s ↔
      t.params = s.params ∧ t.cfgWrite = s.cfgWrite ∧ t.cfgErase = s.cfgErase ∧ t.cfgModel = s.cfgModel ∧
      t.cfgVariant = s.cfgVariant ∧ t.fsize = s.fsize := by
  simp only [configuration, Prod.mk.injEq]

/-- No response writes the configuration or the File. -/
theorem responseEnd_frame {i : Instr} {r : Bytes} {s t : State} (h : ResponseEnd i r s t) :
    configuration t = configuration s ∧ t.file = s.file := by
  rcases h with ⟨code, -, -, rfl⟩ | ⟨-, -, rfl⟩ | ⟨-, -, -, rfl⟩ | ⟨-, rfl⟩ | ⟨-, rfl⟩ | ⟨-, rfl⟩ | ⟨-, rfl, -⟩ <;>
    exact ⟨rfl, rfl⟩

/-- No engine step writes the configuration or the File. -/
theorem engineEnd_frame {s t : State} (h : EngineEnd s t) :
    configuration t = configuration s ∧ t.file = s.file := by
  cases h with
  | response i r rs n _ _ _ _ _ e =>
    have hframe := responseEnd_frame e
    exact hframe
  | wait _ _ e | done _ _ _ e | fetched _ _ _ e | refused _ _ _ e | sent _ _ _ _ _ _ _ _ _ e
  | unsent _ _ _ _ _ _ _ _ _ e | unread _ _ _ _ e => subst e; exact ⟨rfl, rfl⟩

/-- Settles O14: of the ends of a step only a Terminate, and a Start in `IDLE`, write the configuration; the Host opens
another File only outside a session. -/
theorem configurationIsReadOnlyAfterStart : Obligations.ConfigurationIsReadOnlyAfterStart := by
  intro s t h hidle hterm
  suffices hkeep : configuration t = configuration s ∧ (isRunning s.ph = true → t.file = s.file) by
    obtain ⟨hparams, hwrite, herase, hmodel, hvariant, hfsize⟩ := (configuration_eq_iff s t).1 hkeep.1
    exact ⟨hparams, hwrite, herase, hmodel, hvariant, hfsize, hkeep.2⟩
  cases step_ends s t h with
  | terminate ms hm e => exact absurd hm hterm
  | start ms cfg hm hp e => exact absurd hp hidle
  | openFile ms f pos hp e => subst e; exact ⟨rfl, fun hr => by simp [hp] at hr⟩
  | openLink ms ok hp e => subst e; exact ⟨rfl, fun _ => rfl⟩
  | engine ms hq e =>
    obtain ⟨hconfig, hfile⟩ := engineEnd_frame e
    exact ⟨hconfig, fun _ => hfile⟩

end Sys2Proof.Proofs
end

