-- ==== Sys2Proof/Proofs/FileTie.lean ====
section
/-! PROOF. Every step keeps the tie between the session and its File (10_state.md R54, 20_memory.md R75). START makes
the tie, FETCH and the advance after a verified chunk move it, and every other step of a session leaves its fields as they
are. -/

namespace Sys2Proof.Proofs
open Sys2Proof Sys2Proof.Machine

/-! ## Steps that leave the tie's fields as they are -/

/-- What `FileInv` reads of a state besides its phase. -/
def fileTie (s : State) : Params × Nat × Nat × Memory × BitVec 8 × Bytes × Nat × BitVec 7 :=
  (s.params, s.fsize, s.addr, s.chunk, s.clen, s.file, s.fcur, s.progress)

/-- The phases in which a chunk of the File is loaded. -/
abbrev HoldsChunk (ph : Phase) : Prop := ph = .write ∨ ph = .readback

/-- A change of phase after which `FileInv` asks for nothing new: it leaves the session, or stays on the same side of a
FETCH. -/
abbrev KeepsSide (ph ph' : Phase) : Prop :=
  isRunning ph' = true → isRunning ph = true ∧ (HoldsChunk ph' ↔ HoldsChunk ph)

theorem isRunning_of_holdsChunk {ph : Phase} (h : HoldsChunk ph) : isRunning ph = true := by
  rcases h with rfl | rfl <;> rfl

theorem fileInv_of_fileTie_eq {s t : State} (h : FileInv s) (he : fileTie t = fileTie s)
    (hk : KeepsSide s.ph t.ph) : FileInv t := by
  simp only [fileTie, Prod.mk.injEq] at he
  obtain ⟨hparams, hfsize, haddr, hchunk, hclen, hfile, hfcur, hprogress⟩ := he
  have hcur : currentChunk t = currentChunk s := by
    simp only [currentChunk, memRead, bufOf_chunk, hparams, hchunk, hclen]
  have hheld (hc : HoldsChunk t.ph) : HoldsChunk s.ph := (hk (isRunning_of_holdsChunk hc)).2.1 hc
  refine ⟨fun hr => ?_, fun hr hw hb => ?_, fun hc => ?_, fun hc => ?_, ?_⟩
  · rw [hfsize, hfile]; exact h.size (hk hr).1
  · obtain ⟨hrs, hside⟩ := hk hr
    have hs : ¬ HoldsChunk s.ph := fun hc => (hside.2 hc).elim hw hb
    rw [hfcur, haddr]; exact h.before hrs (hs ∘ .inl) (hs ∘ .inr)
  · rw [hfcur, haddr, hclen, hfile]; exact h.after (hheld hc)
  · rw [hcur, haddr, hclen, hfile]; exact h.chunkIs (hheld hc)
  · rw [hprogress]; exact h.percent

/-- A response leaves the tie's fields and the side of the FETCH as they are, but for a verified read-back. -/
theorem responseEnd_fileTie {i : Instr} {r : Bytes} {s t : State} (h : ResponseEnd i r s t)
    (hp : phaseOf i = s.ph) :
    (fileTie t = fileTie s ∧ KeepsSide s.ph t.ph) ∨ (s.ph = .readback ∧ t = advance (received r s)) := by
  have hside (p q : Phase) (hps : p = s.ph) (hpq : KeepsSide p q) : KeepsSide s.ph q := hps ▸ hpq
  rcases h with ⟨code, -, -, rfl⟩ | ⟨rfl, -, rfl⟩ | ⟨rfl, -, -, rfl⟩ | ⟨rfl, rfl⟩ | ⟨rfl, rfl⟩ | ⟨rfl, rfl⟩ |
    ⟨rfl, rfl, -⟩
  · exact .inl ⟨rfl, nofun⟩
  · exact .inl ⟨rfl, hside .handshake .info hp (by decide)⟩
  · exact .inl ⟨rfl, hside .info .model hp (by decide)⟩
  · have hmodel : KeepsSide .model (if s.cfgModel = .flash ∧ s.cfgErase = true then .erase else .fetch) := by
      split <;> decide
    exact .inl ⟨rfl, hside _ _ hp hmodel⟩
  · exact .inl ⟨rfl, hside .erase .fetch hp (by decide)⟩
  · exact .inl ⟨rfl, hside .write .readback hp (by decide)⟩
  · exact .inr ⟨hp.symm, rfl⟩

/-! ## The steps that make or move the tie -/

theorem chunkSize_le_100 {p : Params} (h : p.inRange = true) : p.chunkSize ≤ 100 := by
  simp only [Params.inRange, Bool.and_eq_true, decide_eq_true_eq] at h
  omega

theorem fsizeW_eq_addrW {p : Params} (h : p.inRange = true) : p.fsizeW = p.addrW := by
  simp only [Params.inRange, Bool.and_eq_true, beq_iff_eq] at h
  exact h.2

/-- START leaves the File's length in `FSIZE` and, launched as 70_reset_and_hazards.md R302 asks, the cursor at
`ADDR`. -/
theorem fileInv_startSession {cfg : StartCfg} {s : State} (hfit : cfg.start < 2 ^ s.params.addrW)
    (hcur : s.fcur = cfg.start) (hpct : s.progress.toNat ≤ 100) : FileInv (startSession cfg s) := by
  rcases startSession_cases cfg s with
    ⟨-, e⟩ | ⟨-, -, e⟩ | ⟨-, -, s1, rfl, ⟨-, e⟩ | ⟨-, s2, rfl, ⟨-, e⟩ | ⟨-, e⟩⟩⟩ <;> rw [e]
  · exact fileInv_of_not_running rfl hpct
  · exact fileInv_of_not_running rfl hpct
  · exact fileInv_of_not_running rfl hpct
  · exact ⟨fun _ => rfl, fun _ _ _ => hcur.trans (Nat.mod_eq_of_lt hfit).symm, nofun, nofun, hpct⟩
  · exact fileInv_of_not_running rfl hpct

/-- FETCH takes the File's bytes from `ADDR` on into `CHUNK` and moves the cursor behind them. -/
theorem fileInv_fetchChunk {s t : State} (hi : Inv s) (h : FileInv s) (hp : s.ph = .fetch)
    (ht : fetchChunk s = .next t) : FileInv t := by
  rcases (fetchChunk_next s t).1 ht with ⟨-, rfl⟩ | ⟨hne, rfl⟩
  · exact fileInv_of_not_running rfl h.percent
  have hcur : s.fcur = s.addr := h.before (by simp [hp, isRunning]) (by simp [hp]) (by simp [hp])
  have hbytes : nextBytes s = (s.file.drop s.addr).take s.params.chunkSize := by rw [nextBytes, hcur]
  have hlen : (nextBytes s).length = min s.params.chunkSize (s.file.length - s.addr) := by simp [hbytes]
  have hpos : 0 < (nextBytes s).length := List.length_pos_iff.2 hne
  have hsize := chunkSize_le_100 (hi.accepted (by simp [hp]) (by simp [hp])).2.1
  have hclen : (BitVec.ofNat 8 (nextBytes s).length).toNat = (nextBytes s).length := by
    rw [BitVec.toNat_ofNat]; omega
  refine ⟨fun _ => h.size (by simp [hp, isRunning]), fun _ hw hb => ?_, fun _ => ?_, fun _ => ?_, h.percent⟩
  · exact absurd (show HoldsChunk (if s.cfgWrite then .write else .readback) by split <;> decide)
      (not_or.2 ⟨hw, hb⟩)
  · simp only [hclen, hcur, true_and]; omega
  · have htake : nextBytes s = (s.file.drop s.addr).take (nextBytes s).length := by
      rw [hbytes, List.length_take, ← List.take_eq_take_min]
    simp only [currentChunk, memRead_ok, hclen, bufOf_chunk, capacity_chunk]
    rw [← htake, memGetBytes_memPutBytes]
    exact ⟨by omega, rfl⟩

/-- A verified chunk moves `ADDR` to the cursor: inside the File it neither wraps nor reports more than 100. -/
theorem fileInv_advance {s : State} (hi : Inv s) (h : FileInv s) (hp : s.ph = .readback) : FileInv (advance s) := by
  obtain ⟨hcur, hin⟩ := h.after (.inr hp)
  have hsize : s.fsize = s.file.length := h.size (by simp [hp, isRunning])
  have hpos : 1 ≤ s.clen.toNat := (hi.loaded (.inr hp)).1
  have hwidth : s.fsize < 2 ^ s.params.addrW := by
    rw [← fsizeW_eq_addrW (hi.accepted (by simp [hp]) (by simp [hp])).2.1]
    exact hi.widths.2
  have hnowrap : (s.addr + s.clen.toNat) % 2 ^ s.params.addrW = s.addr + s.clen.toNat :=
    Nat.mod_eq_of_lt (by omega)
  have hpct : progressPct (s.addr + s.clen.toNat) s.fsize ≤ 100 := by
    rw [progressPct, if_neg (by omega)]
    exact Nat.div_le_of_le_mul (Nat.mul_le_mul_right 100 (by omega))
  rw [advance_eq, hnowrap]
  refine ⟨fun _ => hsize, fun _ _ _ => hcur, nofun, nofun, ?_⟩
  rw [BitVec.toNat_ofNat]
  exact (Nat.mod_le _ _).trans hpct

/-! ## The engine's step and the whole step -/

/-- A spent entry of the Host's schedule is nothing the block's invariant speaks of. -/
theorem inv_hostMoves {s : State} (h : Inv s) (ms : List (Option HostMove)) : Inv { s with hostMoves := ms } :=
  ⟨h.forms, h.bounds, h.held, h.widths, h.clenRange, h.errIff, h.causeOnly, h.reasonIff, h.sendOutside, h.accepted,
    h.eraseGate, h.writeGate, h.loaded⟩

theorem fileInv_engineEnd {s t : State} (hi : Inv s) (h : FileInv s) (he : EngineEnd s t) : FileInv t := by
  cases he with
  | wait _ _ e => subst e; exact h
  | done _ hp hn e => exact fileInv_fetchChunk hi h hp ((fetchChunk_next s t).2 (.inl ⟨hn, e⟩))
  | fetched _ hp hn e => exact fileInv_fetchChunk hi h hp ((fetchChunk_next s t).2 (.inr ⟨hn, e⟩))
  | sent _ _ _ _ _ _ _ _ _ e => subst e; exact fileInv_of_fileTie_eq h rfl fun hr => ⟨hr, Iff.rfl⟩
  | refused _ _ _ e | unsent _ _ _ _ _ _ _ _ _ e | unread _ _ _ _ e =>
    subst e; exact fileInv_of_not_running rfl h.percent
  | response i r rs n _ _ hpi _ _ e =>
    rcases responseEnd_fileTie e hpi with ⟨htie, hside⟩ | ⟨hp, rfl⟩
    · exact fileInv_of_fileTie_eq h htie hside
    · exact fileInv_of_fileTie_eq (fileInv_advance hi h hp) rfl fun hr => ⟨hr, Iff.rfl⟩

/-- Settles O43, by the ends of a step: a launched Start makes the tie, the engine's step keeps it, and the Host's
other moves happen outside a session or end it. -/
theorem everyStepKeepsTheFileInvariant : Obligations.EveryStepKeepsTheFileInvariant := by
  intro s t hi h hlaunched hstep
  cases step_ends s t hstep with
  | terminate ms hm e => subst e; exact fileInv_of_not_running rfl (Nat.zero_le 100)
  | start ms cfg hm hp e =>
    obtain ⟨hfit, hcur⟩ := hlaunched cfg hm hp
    subst e
    exact fileInv_startSession hfit hcur h.percent
  | openFile ms f pos hp e => subst e; exact fileInv_of_not_running hp h.percent
  | openLink ms ok hp e => subst e; exact fileInv_of_not_running hp h.percent
  | engine ms hq e =>
    exact fileInv_engineEnd (inv_hostMoves hi ms) (fileInv_of_fileTie_eq h rfl fun hr => ⟨hr, Iff.rfl⟩) e

end Sys2Proof.Proofs
end

