-- ==== Sys2Proof/Proofs/BlockInvariant.lean ====
section
/-! PROOF. Every step keeps the invariant of the block (20_memory.md R73, 10_state.md R31 to R47, 41_session.md R201 to
R214). One rule for each way a step changes the block comes first: a string stored in its buffer, `ADDR` or the chunk
written, a phase entered, an abort, a refusal. Every end of a step is made of these. -/

namespace Sys2Proof.Proofs
open Sys2Proof Sys2Proof.Machine

/-! ## Fields the invariant does not read -/

/-- `t` is `s` but for the Host's, the Link's and the File's fields, the record, `PROGRESS`, `DIAG_EXP` and
`DIAG_ACT`. -/
def SameBlock (s t : State) : Prop :=
  t = { s with
    progress := t.progress, diagExp := t.diagExp, diagAct := t.diagAct, hostMoves := t.hostMoves
    linkOpen := t.linkOpen, linkWrites := t.linkWrites, linkReads := t.linkReads, linkDraws := t.linkDraws
    file := t.file, fcur := t.fcur, trace := t.trace }

theorem inv_of_sameBlock {s t : State} (h : Inv s) (e : SameBlock s t) : Inv t := by
  rw [e]
  exact { h with }

/-! ## Buffers and registers -/

theorem buffers_setBuf {s : State} {b : Buffer} {m : Memory} (h : Inv s) (hform : memWf m = true)
    (hbound : memBelow (capacity s.params b) m = true) (b' : Buffer) :
    memWf (bufOf (setBuf s b m) b') = true ∧ memBelow (capacity s.params b') (bufOf (setBuf s b m) b') = true := by
  by_cases e : b' = b
  · subst e
    rw [bufOf_setBuf_same]
    exact ⟨hform, hbound⟩
  · rw [bufOf_setBuf_other s b b' m e]
    exact ⟨h.forms b', h.bounds b'⟩

/-- A whole string stored in a buffer from 0, with its length register where the buffer has one; `CLEN` is FETCH's to
write. -/
def storeString (b : Buffer) (v : Bytes) (s : State) : State :=
  match b with
  | .chunk => setBuf s .chunk (memPutBytes s.chunk 0 v)
  | .resp => { setBuf s .resp (memPutBytes s.resp 0 v) with respLen := v.length }
  | .info => { setBuf s .info (memPutBytes s.info 0 v) with infoLen := v.length }
  | .diagCmd => { setBuf s .diagCmd (memPutBytes s.diagCmd 0 v) with diagCmdLen := v.length }

/-- A string that fits its buffer may be stored with its length. -/
theorem inv_storeString {s : State} {b : Buffer} {v : Bytes} (h : Inv s) (hb : b ≠ .chunk)
    (hfits : v.length ≤ capacity s.params b) : Inv (storeString b v s) := by
  have hbuf := buffers_setBuf h (memWf_memPutBytes _ 0 v (h.forms b))
    (memBelow_memPutBytes _ _ 0 v (h.bounds b) (by omega))
  have hread : (memGetBytes (memPutBytes (bufOf s b) 0 v) 0 v.length).isSome = true := by
    rw [memGetBytes_memPutBytes]; rfl
  obtain ⟨hresp, hinfo, hdiag⟩ := h.held
  cases b with
  | chunk => exact absurd rfl hb
  | resp =>
    exact { h with forms b' := (hbuf b').1, bounds b' := (hbuf b').2, held := ⟨⟨hfits, hread⟩, hinfo, hdiag⟩ }
  | info =>
    exact { h with forms b' := (hbuf b').1, bounds b' := (hbuf b').2, held := ⟨hresp, ⟨hfits, hread⟩, hdiag⟩ }
  | diagCmd =>
    exact { h with forms b' := (hbuf b').1, bounds b' := (hbuf b').2, held := ⟨hresp, hinfo, hfits, hread⟩ }

theorem inv_iop_send {s : State} (h : Inv s) : Inv { s with iop := .send } :=
  { h with sendOutside _ := rfl }

theorem inv_iop_recv {s : State} (h : Inv s) (hp : isTransaction s.ph = true) : Inv { s with iop := .recv } :=
  { h with sendOutside h' := absurd hp (ne_true_of_eq_false h') }

theorem inv_respLen_zero {s : State} (h : Inv s) : Inv { s with respLen := 0 } :=
  { h with held := ⟨⟨Nat.zero_le _, rfl⟩, h.held.2⟩ }

theorem inv_received {r : Bytes} {s : State} (h : Inv s) (hfits : r.length ≤ s.params.maxRespR) :
    Inv (received r s) :=
  inv_iop_send (inv_storeString (b := .resp) h nofun hfits)

theorem inv_setAddr {s : State} (h : Inv s) (v : Nat) : Inv (setAddr v s) :=
  { h with widths := ⟨Nat.mod_lt _ (Nat.two_pow_pos _), h.widths.2⟩ }

theorem inv_fsize {s : State} {n : Nat} (h : Inv s) (hn : n < 2 ^ s.params.fsizeW) : Inv { s with fsize := n } :=
  { h with widths := ⟨h.widths.1, hn⟩ }

/-! ## Phases -/

/-- A chunk of 1 byte or more is loaded, with its checksum (41_session.md R210). -/
def ChunkLoaded (s : State) : Prop :=
  1 ≤ s.clen.toNat ∧ ∃ c, currentChunk s = .ok c ∧ s.cks = checksum c

/-- Start has accepted the parameters and nothing has gone wrong since. -/
structure InGoodStanding (s : State) : Prop where
  accepted : s.params.variant = .canonical ∧ s.params.inRange = true ∧ s.cfgVariant = .canonical
  noError : s.err = .none
  noRefusal : s.rreason = .none

theorem err_eq_none {s : State} (h : Inv s) (hp : s.ph ≠ .aborted) : s.err = .none :=
  not_not.1 (mt h.errIff.1 hp)

theorem rreason_eq_none {s : State} (h : Inv s) (hp : s.ph ≠ .refused) : s.rreason = .none :=
  not_not.1 (mt h.reasonIff.1 hp)

theorem inGoodStanding_of_running {s : State} (h : Inv s) (hr : isRunning s.ph = true) : InGoodStanding s := by
  have hout (p : Phase) (hp : isRunning p = false) : s.ph ≠ p := fun e => by simp [← e, hr] at hp
  exact ⟨h.accepted (hout .idle rfl) (hout .refused rfl), err_eq_none h (hout .aborted rfl),
    rreason_eq_none h (hout .refused rfl)⟩

/-- What the invariant asks of a state before its phase becomes the given one without an abort or a refusal. -/
def MayEnter (s : State) : Phase → Prop
  | .erase => s.cfgModel = .flash ∧ s.cfgErase = true
  | .write => s.cfgWrite = true ∧ ChunkLoaded s
  | .readback => ChunkLoaded s
  | .aborted => False
  | .refused => False
  | .idle => True
  | .handshake => True
  | .info => True
  | .model => True
  | .fetch => True
  | .done => True

theorem inv_enter {s : State} {p : Phase} (h : Inv s) (hg : InGoodStanding s) (hs : s.iop = .send)
    (hp : MayEnter s p) : Inv { s with ph := p } :=
  { h with
    errIff := ⟨fun he => absurd hg.noError he, by rintro rfl; exact hp.elim⟩
    reasonIff := ⟨fun hr => absurd hg.noRefusal hr, by rintro rfl; exact hp.elim⟩
    sendOutside _ := hs
    accepted _ _ := hg.accepted
    eraseGate := by rintro rfl; exact hp
    writeGate := by rintro rfl; exact hp.1
    loaded := by rintro (rfl | rfl); exacts [hp.2, hp] }

theorem inv_abort {s : State} {code : ErrCode} {cause : IoCause} (h : Inv s) (hg : InGoodStanding s)
    (hcode : code ≠ .none) (hcause : cause ≠ .none → code = .ioError) : Inv (abort code cause s) :=
  { h with
    errIff := ⟨fun _ => rfl, fun _ => hcode⟩
    causeOnly := hcause
    reasonIff := ⟨fun hr => absurd hg.noRefusal hr, nofun⟩
    sendOutside _ := rfl
    accepted _ _ := hg.accepted
    eraseGate := nofun
    writeGate := nofun
    loaded := nofun }

theorem inv_refuse {s : State} {reason : RefuseReason} (h : Inv s) (hp : s.ph ≠ .aborted) (hs : s.iop = .send)
    (hreason : reason ≠ .none) : Inv (refuse reason s) :=
  { h with
    errIff := ⟨fun he => absurd (err_eq_none h hp) he, nofun⟩
    reasonIff := ⟨fun _ => rfl, fun _ => hreason⟩
    sendOutside _ := hs
    accepted _ hr := absurd rfl hr
    eraseGate := nofun
    writeGate := nofun
    loaded := nofun }

/-! ## START, Terminate and FETCH -/

theorem inv_blockReset (s : State) : Inv (blockReset s) where
  forms b := by cases b <;> rfl
  bounds b := by cases b <;> rfl
  held := ⟨⟨Nat.zero_le _, rfl⟩, ⟨Nat.zero_le _, rfl⟩, Nat.zero_le _, rfl⟩
  widths := ⟨Nat.two_pow_pos _, Nat.two_pow_pos _⟩
  clenRange := Nat.zero_le _
  errIff := ⟨fun h => absurd rfl h, nofun⟩
  causeOnly h := absurd rfl h
  reasonIff := ⟨fun h => absurd rfl h, nofun⟩
  sendOutside _ := rfl
  accepted h := absurd rfl h
  eraseGate := nofun
  writeGate := nofun
  loaded := nofun

/-- In `IDLE` no clause speaks of the configuration. -/
theorem inv_configure {s : State} (h : Inv s) (hp : s.ph = .idle) (w e : Bool) (m : MemoryModel) (v : Variant) :
    Inv { s with cfgWrite := w, cfgErase := e, cfgModel := m, cfgVariant := v } :=
  { h with
    accepted h' := absurd hp h'
    eraseGate h' := absurd (hp.symm.trans h') nofun
    writeGate h' := absurd (hp.symm.trans h') nofun
    loaded h' := by rcases h' with h' | h' <;> cases hp.symm.trans h' }

theorem inv_startSession {cfg : StartCfg} {s : State} (h : Inv s) (hp : s.ph = .idle) : Inv (startSession cfg s) := by
  have hs : s.iop = .send := h.sendOutside (by rw [hp]; rfl)
  have hna : s.ph ≠ .aborted := by rw [hp]; nofun
  have herr := err_eq_none h hna
  have hreason := rreason_eq_none h (by rw [hp]; nofun)
  have hconf := inv_setAddr (inv_configure h hp cfg.write cfg.erase cfg.model .canonical) cfg.start
  rcases startSession_cases cfg s with
    ⟨-, e⟩ | ⟨-, -, e⟩ | ⟨hv, hr, s1, rfl, ⟨-, e⟩ | ⟨hsize, s2, hs2, hend⟩⟩
  · rw [e]; exact inv_refuse h hna hs nofun
  · rw [e]; exact inv_refuse h hna hs nofun
  · rw [e]; exact inv_refuse (inv_of_sameBlock hconf rfl) hna hs nofun
  have hinv : Inv s2 := hs2 ▸ inv_of_sameBlock (inv_fsize hconf hsize) rfl
  have hg : InGoodStanding s2 := hs2 ▸ ⟨⟨hv, hr, rfl⟩, herr, hreason⟩
  rcases hend with ⟨-, e⟩ | ⟨-, e⟩ <;> rw [e]
  · exact inv_enter (p := .handshake) (inv_iop_send hinv) { hg with } rfl trivial
  · exact inv_abort hinv hg nofun fun _ => rfl

/-- The state with `c` as its chunk (41_session.md R210). -/
def withLoaded (c : Bytes) (s : State) : State :=
  { s with chunk := memPutBytes [] 0 c, clen := BitVec.ofNat 8 c.length, cks := checksum c }

theorem toNat_ofNat_length {p : Params} {c : Bytes} (hr : p.inRange = true) (hc : c.length ≤ p.chunkSize) :
    (BitVec.ofNat 8 c.length).toNat = c.length := by
  have := chunkSize_le_100 hr
  rw [BitVec.toNat_ofNat]; omega

theorem currentChunk_withLoaded {c : Bytes} {s : State} (hr : s.params.inRange = true)
    (hc : c.length ≤ s.params.chunkSize) : currentChunk (withLoaded c s) = .ok c := by
  have hclen : (withLoaded c s).clen.toNat = c.length := toNat_ofNat_length hr hc
  rw [currentChunk, hclen, memRead_ok, Nat.zero_add]
  exact ⟨hc, memGetBytes_memPutBytes [] 0 c⟩

theorem chunkLoaded_withLoaded {c : Bytes} {s : State} (hr : s.params.inRange = true)
    (hc : c.length ≤ s.params.chunkSize) (hne : c ≠ []) : ChunkLoaded (withLoaded c s) :=
  ⟨toNat_ofNat_length hr hc ▸ List.length_pos_iff.2 hne, c, currentChunk_withLoaded hr hc, rfl⟩

theorem inv_withLoaded {c : Bytes} {s : State} (h : Inv s) (hp : s.ph = .fetch) (hr : s.params.inRange = true)
    (hc : c.length ≤ s.params.chunkSize) : Inv (withLoaded c s) := by
  have hbuf := buffers_setBuf (b := .chunk) h (memWf_memPutBytes [] 0 c rfl)
    (memBelow_memPutBytes [] s.params.chunkSize 0 c rfl (by omega))
  exact { h with
    forms b' := (hbuf b').1
    bounds b' := (hbuf b').2
    clenRange := (toNat_ofNat_length hr hc).trans_le hc
    loaded h' := by rcases h' with h' | h' <;> cases hp.symm.trans h' }

theorem inv_fetched {s : State} (h : Inv s) (hp : s.ph = .fetch) (hne : nextBytes s ≠ []) :
    Inv { withLoaded (nextBytes s) s with ph := if s.cfgWrite then .write else .readback } := by
  have hr := (h.accepted (by rw [hp]; nofun) (by rw [hp]; nofun)).2.1
  have hlen : (nextBytes s).length ≤ s.params.chunkSize := List.length_take_le _ _
  have hload := inv_withLoaded h hp hr hlen
  have hc := chunkLoaded_withLoaded hr hlen hne
  refine inv_enter hload (inGoodStanding_of_running hload (by rw [show (withLoaded _ s).ph = _ from hp]; rfl))
    (h.sendOutside (by rw [hp]; rfl)) ?_
  split
  · next hw => exact ⟨hw, hc⟩
  · exact hc

/-! ## The engine's step and the whole step -/

theorem isRunning_of_isTransaction {ph : Phase} (h : isTransaction ph = true) : isRunning ph = true := by
  revert h; cases ph <;> decide

theorem isTransaction_phaseOf (i : Instr) : isTransaction (phaseOf i) = true := by cases i <;> rfl

theorem inv_responseEnd {i : Instr} {r : Bytes} {s t : State} (h : Inv s) (hp : phaseOf i = s.ph)
    (hfits : r.length ≤ s.params.maxRespR) (he : ResponseEnd i r s t) : Inv t := by
  have hrun : isRunning s.ph = true := isRunning_of_isTransaction (hp ▸ isTransaction_phaseOf i)
  have hrec := inv_received h hfits
  have hg := inGoodStanding_of_running hrec hrun
  rcases he with ⟨code, hne, -, rfl⟩ | ⟨rfl, -, rfl⟩ | ⟨rfl, -, hinfo, rfl⟩ | ⟨rfl, rfl⟩ | ⟨rfl, rfl⟩ | ⟨rfl, rfl⟩ |
    ⟨rfl, rfl, -⟩
  · exact inv_abort hrec hg hne nofun
  · exact inv_enter (p := .info) hrec hg rfl trivial
  · have hstore := inv_storeString (b := .info) hrec nofun hinfo
    exact inv_enter (p := .model) hstore (inGoodStanding_of_running hstore hrun) rfl trivial
  · refine inv_enter hrec hg rfl ?_
    split
    · next hflash => exact hflash
    · trivial
  · exact inv_enter (p := .fetch) hrec hg rfl trivial
  · exact inv_enter (p := .readback) hrec hg rfl (h.loaded (.inl hp.symm))
  · have haddr := inv_setAddr hrec (s.addr + s.clen.toNat)
    exact inv_of_sameBlock (inv_enter (p := .fetch) haddr (inGoodStanding_of_running haddr hrun) rfl trivial) rfl

theorem inv_engineEnd {s t : State} (h : Inv s) (he : EngineEnd s t) : Inv t := by
  cases he with
  | wait _ _ e => subst e; exact h
  | done hi hp _ e =>
    subst e
    have hg := inGoodStanding_of_running h (by rw [hp]; rfl)
    exact inv_of_sameBlock (inv_enter (p := .done) h hg hi trivial) rfl
  | fetched _ hp hn e => subst e; exact inv_of_sameBlock (inv_fetched h hp hn) rfl
  | refused hi hp _ e => subst e; exact inv_refuse h (by rw [hp]; nofun) hi nofun
  | sent i _ _ _ hp _ _ _ hl e =>
    subst e
    have hstore := inv_storeString (b := .diagCmd) h nofun hl
    exact inv_of_sameBlock (inv_iop_recv hstore (hp ▸ isTransaction_phaseOf i)) rfl
  | unsent i _ _ _ hp _ _ _ hl e =>
    subst e
    have hstore := inv_storeString (b := .diagCmd) h nofun hl
    have hg := inGoodStanding_of_running hstore (isRunning_of_isTransaction (hp ▸ isTransaction_phaseOf i))
    exact inv_of_sameBlock (inv_abort (code := .ioError) (cause := .linkWrite) hstore hg nofun fun _ => rfl) rfl
  | unread _ _ _ hp e =>
    subst e
    have hlen := inv_respLen_zero h
    have hg := inGoodStanding_of_running hlen (isRunning_of_isTransaction hp)
    exact inv_of_sameBlock (inv_abort (code := .ioError) (cause := .linkRead) hlen hg nofun fun _ => rfl) rfl
  | response i r rs n _ _ hpi _ hl e =>
    exact inv_responseEnd (inv_of_sameBlock h rfl : Inv (drawn rs n _ s)) hpi hl e

/-- Settles O40, by the ends of a step: a Terminate resets the block, a Start happens in `IDLE`, the Host's other moves
touch no field of the block, and an engine step is made of the rules above. -/
theorem everyStepKeepsTheInvariant : Obligations.EveryStepKeepsTheInvariant := by
  intro s t h hstep
  cases step_ends s t hstep with
  | terminate ms hm e => subst e; exact inv_blockReset _
  | start ms cfg hm hp e => subst e; exact inv_startSession (inv_hostMoves h ms) hp
  | openFile ms f pos hp e => subst e; exact inv_of_sameBlock h rfl
  | openLink ms ok hp e => subst e; exact inv_of_sameBlock h rfl
  | engine ms hq e => exact inv_engineEnd (inv_hostMoves h ms) e

end Sys2Proof.Proofs
end

