-- ==== Sys2Proof/Proofs/NoStop.lean ====
section
/-! PROOF. No step from the invariant faults or is refused (20_memory.md R73, 41_session.md R200, 10_state.md R55). A
request fits `DIAG_CMD` because the engine builds well-formed ones only, a response fits `RESP` because no `LinkRead`
returns more than its limit, and a chunk is readable where a step reads it. -/

namespace Sys2Proof.Proofs
open Sys2Proof Sys2Proof.Machine

/-! ## Requests -/

theorem encodingFits (i : Instr) : Laws.EncodingFits.Statement i := by
  cases i with
  | reqH => exact Laws.EncodingFits.reqH
  | reqI => exact Laws.EncodingFits.reqI
  | reqM model => exact Laws.EncodingFits.reqM model
  | reqFES start count => exact Laws.EncodingFits.reqFES start count
  | reqW cks addr data => exact Laws.EncodingFits.reqW cks addr data
  | reqR addr len => exact Laws.EncodingFits.reqR addr len
  | rspHELLO res => exact Laws.EncodingFits.rspHELLO res
  | rspINFO res => exact Laws.EncodingFits.rspINFO res
  | rspMODEL res => exact Laws.EncodingFits.rspMODEL res
  | rspERASED res => exact Laws.EncodingFits.rspERASED res
  | rspWRITED res => exact Laws.EncodingFits.rspWRITED res
  | rspREADBACK res => exact Laws.EncodingFits.rspREADBACK res

theorem eraseStartSector_eq_zero {p : Params} (h : p.inRange = true) : p.eraseStartSector = 0 := by
  simp only [Params.inRange, Bool.and_eq_true, beq_iff_eq] at h
  obtain ⟨⟨⟨-, hsector⟩, -⟩, -⟩ := h
  exact hsector

theorem currentChunk_length {s : State} {c : Bytes} (h : currentChunk s = .ok c) : c.length = s.clen.toNat :=
  memGetBytes_length _ _ _ _ ((memRead_ok _ _ _ _ _).1 h).2

theorem wireAddr_lt (addr : Nat) : wireAddr addr < 10 ^ 8 := Nat.mod_lt _ (by decide)

theorem params_inRange {s : State} (h : Inv s) (hp : isTransaction s.ph = true) : s.params.inRange = true :=
  (inGoodStanding_of_running h (isRunning_of_isTransaction hp)).accepted.2.1

/-- The request the engine's registers give in its phase is one that 30_encoding.md R113 says the engine emits, but for
an erase count that has no frame. -/
theorem wellFormed_of_engineRequest {s : State} {i : Instr} (h : Inv s) (hp : s.ph = phaseOf i)
    (he : EngineRequest s i) (hcount : ∀ start count, i = .reqFES start count → count ≤ 255) :
    i.wellFormed s.params = true := by
  have hr := params_inRange h (hp ▸ isTransaction_phaseOf i)
  have hclen := h.clenRange
  rcases he with rfl | rfl | rfl | rfl | ⟨c, hc, rfl⟩ | rfl
  · rfl
  · rfl
  · rfl
  · have hle : sectorCount s.params s.fsize ≤ 255 := hcount _ _ rfl
    have hone : 1 ≤ sectorCount s.params s.fsize := Nat.le_add_left 1 _
    simp [operandsFES, Instr.wellFormed, eraseStartSector_eq_zero hr, hle, hone]
  · have hlen := currentChunk_length hc
    have hone := (h.loaded (.inl hp)).1
    simp only [Instr.wellFormed, Bool.and_eq_true, decide_eq_true_eq]
    exact ⟨⟨wireAddr_lt _, by omega⟩, by omega⟩
  · have hone := (h.loaded (.inr hp)).1
    simp only [operandsR, Instr.wellFormed, Bool.and_eq_true, decide_eq_true_eq]
    exact ⟨⟨wireAddr_lt _, hone⟩, hclen⟩

theorem exec_engineRequest_next {s : State} {i : Instr} (h : Inv s) (hf : s.params.readLimitsFit = true)
    (hi : s.iop = .send) (hp : s.ph = phaseOf i) (hs : iopOf i = .send) (he : EngineRequest s i) :
    ∃ t, exec i s = .next t := by
  by_cases hover : ∃ start count, i = .reqFES start count ∧ 255 < count
  · obtain ⟨start, count, e, hc⟩ := hover
    exact ⟨_, (exec_request_next i s _ hs).2 ⟨hp, hi, .inl ⟨start, count, e, hc, rfl⟩⟩⟩
  · have hcount : ∀ start count, i = .reqFES start count → count ≤ 255 := fun start count e =>
      not_lt.1 fun hc => hover ⟨start, count, e, hc⟩
    have hlen : (encode i).length ≤ 14 + 3 * s.params.chunkSize := by
      have := encodingFits i s.params (params_inRange h (hp ▸ isTransaction_phaseOf i)) hf
        (wellFormed_of_engineRequest h hp he hcount)
      simpa [hs] using this
    exact ⟨_, (exec_request_next i s _ hs).2 ⟨hp, hi, .inr ⟨hcount, (tx_next _ _ _).2 ⟨hlen, rfl⟩⟩⟩⟩

/-! ## Responses -/

theorem readLimit_le_maxRespR {p : Params} (hf : p.readLimitsFit = true) (ph : Phase) :
    readLimit p ph ≤ p.maxRespR := by
  simp only [Params.readLimitsFit, Bool.and_eq_true, decide_eq_true_eq] at hf
  cases ph <;> simp only [readLimit] <;> omega

/-- A response that fits `RESP`, and `INFO` where it is the info text, has an end, with the chunk readable where it is
compared. -/
theorem exec_response_data_next {s : State} {mk : ReadResult → Instr} {r : Bytes} (hi : s.iop = .recv)
    (hm : responseOf s.ph = some mk) (hfits : r.length ≤ s.params.maxRespR)
    (hinfo : s.ph = .info → r.length ≤ s.params.maxRespI)
    (hchunk : s.ph = .readback → ∃ c, currentChunk s = .ok c) : ∃ t, exec (mk (.data r)) s = .next t := by
  cases hp : s.ph <;> rw [hp] at hm <;> cases hm
  case handshake => exact ⟨_, execRspHELLO_data r s hp hi hfits⟩
  case info => exact ⟨_, execRspINFO_data r s hp hi hfits (hinfo hp)⟩
  case model => exact ⟨_, execRspMODEL_data r s hp hi hfits⟩
  case erase => exact ⟨_, execRspERASED_data r s hp hi hfits⟩
  case write => exact ⟨_, execRspWRITED_data r s hp hi hfits⟩
  case readback =>
    obtain ⟨c, hc⟩ := hchunk hp
    exact ⟨_, execRspREADBACK_data r c s hp hi hfits hc⟩

theorem exec_linkRead_next {s s1 : State} {mk : ReadResult → Instr} {res : ReadResult} (h : Inv s)
    (hf : s.params.readLimitsFit = true) (hi : s.iop = .recv) (hm : responseOf s.ph = some mk)
    (hl : linkRead (readLimit s.params s.ph) s = (res, s1)) : ∃ t, exec (mk res) s1 = .next t := by
  obtain ⟨rs, n, ⟨r, hr, e⟩ | e⟩ := linkRead_cases (readLimit s.params s.ph) s <;> cases hl.symm.trans e
  · refine exec_response_data_next hi hm (hr.trans (readLimit_le_maxRespR hf s.ph)) (fun hp => ?_) fun hp => ?_
    · have hinfo : s.ph = .info := hp
      rwa [hinfo] at hr
    · obtain ⟨-, c, hc, -⟩ := h.loaded (.inr hp)
      exact ⟨c, hc⟩
  · exact ⟨_, exec_read_ioError _ _ (responseOf_spec _ _ _ hm).2.1.symm hi (responseOf_ioError _ _ hm)⟩

/-! ## The engine's step and the whole step -/

theorem fetchChunk_has_next (s : State) : ∃ t, fetchChunk s = .next t := by
  by_cases hn : nextBytes s = []
  · exact ⟨_, (fetchChunk_next s _).2 (.inl ⟨hn, rfl⟩)⟩
  · exact ⟨_, (fetchChunk_next s _).2 (.inr ⟨hn, rfl⟩)⟩

theorem engineStep_next {s : State} (h : Inv s) (hf : s.params.readLimitsFit = true) :
    ∃ t, engineStep s = .next t := by
  have hsel := select_selected s
  unfold engineStep
  generalize select s = sel at hsel
  cases hsel with
  | wait hi hp => exact ⟨s, rfl⟩
  | fileRead hi hp => exact fetchChunk_has_next s
  | request i hi hp hs he => exact exec_engineRequest_next h hf hi hp hs he
  | response mk res s1 hi hm hl => exact exec_linkRead_next h hf hi hm hl
  | noChunk f hi hp hc =>
    obtain ⟨-, c, hok, -⟩ := h.loaded (.inl hp)
    cases hok.symm.trans hc
  | unreachable hi hp => cases hi.symm.trans (h.sendOutside hp)

/-- Settles O41: a Host move that has an effect gives a next state, and the engine's step has one by cases over what
step selection can give. -/
theorem noStepFromTheInvariantStops : Obligations.NoStepFromTheInvariantStops := by
  intro s h hf
  rcases step_cases s with ⟨m, t, -, -, e⟩ | ⟨-, e⟩
  · exact ⟨t, e⟩
  · obtain ⟨ms, hs⟩ := hostTurn_state s
    rw [e, hs]
    exact engineStep_next (inv_hostMoves h ms) hf

end Sys2Proof.Proofs
end

