-- ==== Sys2Proof/Proofs/FetchedChunk.lean ====
section
/-! PROOF. FETCH takes the chunk at File offset `ADDR` (20_memory.md R75, 41_session.md R210, R223). -/

namespace Sys2Proof.Proofs
open Sys2Proof Sys2Proof.Machine

theorem engineStep_fetch {s : State} (hp : s.ph = .fetch) (hi : s.iop = .send) : engineStep s = fetchChunk s := by
  simp only [engineStep, select, hp, hi]

/-- A FETCH that takes a chunk takes the File's bytes from `ADDR` on, at most the chunk size. -/
theorem fetchChunk_takes {s t : State} (h : Inv s) (hfile : FileInv s) (hp : s.ph = .fetch)
    (ht : fetchChunk s = .next t) (hd : t.ph ≠ .done) :
    t.addr = s.addr ∧ t.clen.toNat = min s.params.chunkSize (s.fsize - s.addr) ∧
      currentChunk t = .ok ((s.file.drop s.addr).take s.params.chunkSize) := by
  have hrun : isRunning s.ph = true := by rw [hp]; rfl
  have hcur : s.fcur = s.addr := hfile.before hrun (by simp [hp]) (by simp [hp])
  have hbytes : nextBytes s = (s.file.drop s.addr).take s.params.chunkSize := by rw [nextBytes, hcur]
  have hsize : (nextBytes s).length = min s.params.chunkSize (s.fsize - s.addr) := by
    rw [hbytes, List.length_take, List.length_drop, hfile.size hrun]
  have hr := (inGoodStanding_of_running h hrun).accepted.2.1
  have hle : (nextBytes s).length ≤ s.params.chunkSize := List.length_take_le _ _
  rcases (fetchChunk_next s t).1 ht with ⟨-, rfl⟩ | ⟨-, rfl⟩
  · exact absurd rfl hd
  · exact ⟨rfl, (toNat_ofNat_length hr hle).trans hsize, hbytes ▸ currentChunk_withLoaded hr hle⟩

/-- Settles O44: the step is the FETCH of the state with the schedule's entry spent, which both invariants hold of. -/
theorem fetchTakesTheChunkAtTheAddress : Obligations.FetchTakesTheChunkAtTheAddress := by
  intro s t h hfile hq hp hstep hd
  obtain ⟨ms, hs⟩ := hostTurn_state s
  have hspent : FileInv { s with hostMoves := ms } := fileInv_of_fileTie_eq hfile rfl fun hr => ⟨hr, Iff.rfl⟩
  have hfetch : engineStep { s with hostMoves := ms } = fetchChunk { s with hostMoves := ms } :=
    engineStep_fetch hp (h.sendOutside (by rw [hp]; rfl))
  rw [step_quiet s hq, hs, hfetch] at hstep
  exact fetchChunk_takes (s := { s with hostMoves := ms }) (inv_hostMoves h ms) hspent hp hstep hd

end Sys2Proof.Proofs
end

