-- ==== Sys2Proof/Proofs/StringsThatDoNotFit.lean ====
section
/-! PROOF. Strings that do not fit their buffer, and a chunk that cannot be read, stop by name (the model's choice,
log 2, log 13). -/

namespace Sys2Proof.Proofs
open Sys2Proof Sys2Proof.Machine

theorem memWrite_fault {s : State} {b : Buffer} {v : Bytes} {k : State → Out}
    (h : capacity s.params b < v.length) : memWrite s b 0 v k = .fault (.bufferRange b) :=
  if_neg (by omega)

theorem rx_fault {r : Bytes} {s : State} {k : Bytes → State → Out} (h : s.params.maxRespR < r.length) :
    rx (.data r) s k = .fault (.bufferRange .resp) := by
  rw [rx]
  exact memWrite_fault h

/-- Every response stores its string in `RESP` before it reads it. -/
theorem exec_response_fault {i : Instr} {r : Bytes} {s : State} (hi : i ∈ responses r) (hp : s.ph = phaseOf i)
    (hrecv : s.iop = .recv) (h : s.params.maxRespR < r.length) : exec i s = .fault (.bufferRange .resp) := by
  simp only [responses, List.mem_cons, List.not_mem_nil, or_false] at hi
  rcases hi with rfl | rfl | rfl | rfl | rfl | rfl <;> exact (whenEnabled_of _ _ _ _ hp hrecv).trans (rx_fault h)

theorem execRspINFO_fault {r : Bytes} {s : State} (hp : s.ph = .info) (hrecv : s.iop = .recv)
    (hfits : r.length ≤ s.params.maxRespR) (h : s.params.maxRespI < r.length) :
    exec (.rspINFO (.data r)) s = .fault (.bufferRange .info) := by
  have hv : valInfo r = true := decide_eq_true (by omega)
  rw [exec, execRspINFO, whenEnabled_of _ _ _ _ hp hrecv, rx_data _ _ _ hfits, if_pos hv]
  exact memWrite_fault h

theorem execRspREADBACK_fault {r : Bytes} {s : State} {f : Fault} (hp : s.ph = .readback) (hrecv : s.iop = .recv)
    (hfits : r.length ≤ s.params.maxRespR) (hlen : r.length = expectedLen s.params s.clen.toNat)
    (hf : currentChunk s = .error f) : exec (.rspREADBACK (.data r)) s = .fault f := by
  have hshape : valRbShape s.params r s.clen.toNat = true := beq_iff_eq.2 hlen
  have hf' : currentChunk (received r s) = .error f := hf
  rw [received] at hf'
  rw [exec, execRspREADBACK, whenEnabled_of _ _ _ _ hp hrecv, rx_data _ _ _ hfits, if_pos hshape, hf']

theorem buildW_length (cks : Byte) (addr : Nat) (data : Bytes) :
    (buildW cks addr data).length = 14 + 3 * data.length := by
  have hcks : (encodeByte cks).length = 3 := rfl
  have haddr : (encodeFixed8Digit addr).length = 8 := rfl
  simp only [buildW, List.length_append, Laws.encodeData_length, hcks, haddr, List.length_cons, List.length_nil]
  omega

theorem execReqW_fault {cks : Byte} {addr : Nat} {data : Bytes} {s : State} (hp : s.ph = .write)
    (hsend : s.iop = .send) (h : s.params.chunkSize < data.length) :
    exec (.reqW cks addr data) s = .fault (.bufferRange .diagCmd) := by
  rw [exec, execReqW, whenEnabled_of _ _ _ _ hp hsend, tx]
  refine memWrite_fault ?_
  rw [buildW_length, capacity_diagCmd]
  omega

/-- Settles O27, one buffer after the other. -/
theorem stringsThatDoNotFitStop : Obligations.StringsThatDoNotFitStop := by
  intro s r
  refine ⟨fun hrecv hover => ?_, fun hrecv hp hfits hover => execRspINFO_fault hp hrecv hfits hover,
    fun hrecv hp hfits hlen f hf => execRspREADBACK_fault hp hrecv hfits hlen hf,
    fun hsend hp hover cks addr => execReqW_fault hp hsend hover⟩
  refine ⟨?_, ?_, ?_, ?_, ?_, ?_⟩ <;> exact fun hp => exec_response_fault (by simp [responses]) hp hrecv hover

end Sys2Proof.Proofs
end

