-- ==== Sys2Proof/Proofs/Digits.lean ====
section
/-! PROOF. Fixed-width digit fields (40_codec.md R141 to R143): the digits of a value, and the two directions between a
field and its value, for every width. -/

namespace Sys2Proof.Proofs
open Sys2Proof Sys2Proof.Machine

/-- The last `w` decimal digits of `v`, most significant first. -/
def digitField : Nat → Nat → Bytes
  | 0, _ => []
  | w + 1, v => digitByte (v / 10 ^ w % 10) :: digitField w v

theorem encodeFixed8Digit_eq_digitField (v : Nat) : encodeFixed8Digit v = digitField 8 v := rfl

theorem encodeByte_eq_digitField (v : Byte) : encodeByte v = digitField 3 v.toNat := by
  have hundreds : v.toNat / 10 ^ 2 % 10 = v.toNat / 100 := by omega
  have units : v.toNat / 10 ^ 0 % 10 = v.toNat % 10 := by rw [pow_zero, Nat.div_one]
  simp only [encodeByte, digitField, hundreds, units, pow_one]

@[simp] theorem digitField_length (w v : Nat) : (digitField w v).length = w := by
  induction w with
  | zero => rfl
  | succ w ih => rw [digitField, List.length_cons, ih]

theorem digitByte_toNat {d : Nat} (h : d < 10) : (digitByte d).toNat = 0x30 + d := by
  rw [digitByte, BitVec.toNat_ofNat]
  omega

theorem isDigit_digitByte {d : Nat} (h : d < 10) : isDigit (digitByte d) = true := by
  simp only [isDigit, digitByte_toNat h, Bool.and_eq_true, decide_eq_true_eq]
  omega

/-- A digit is the digit of its value. -/
theorem digitByte_of_isDigit {b : Byte} (h : isDigit b = true) :
    b.toNat - 0x30 < 10 ∧ digitByte (b.toNat - 0x30) = b := by
  simp only [isDigit, Bool.and_eq_true, decide_eq_true_eq] at h
  have hlt : b.toNat - 0x30 < 10 := by omega
  refine ⟨hlt, BitVec.eq_of_toNat_eq ?_⟩
  rw [digitByte_toNat hlt]
  omega

theorem all_isDigit_digitField (w v : Nat) : (digitField w v).all isDigit = true := by
  induction w with
  | zero => rfl
  | succ w ih => rw [digitField, List.all_cons, isDigit_digitByte (Nat.mod_lt _ (by decide)), ih, Bool.and_self]

/-- Leading digits are lost. -/
theorem digitsValue_digitField (w v : Nat) : digitsValue (digitField w v) = v % 10 ^ w := by
  induction w with
  | zero => rw [pow_zero, Nat.mod_one]; rfl
  | succ w ih =>
    rw [digitField, digitsValue, digitByte_toNat (Nat.mod_lt _ (by decide)), digitField_length, ih,
      Nat.add_sub_cancel_left, Nat.mod_pow_succ, Nat.mul_comm, Nat.add_comm]

/-- A multiple of `10 ^ k` has no digit below place `k`. -/
theorem digitField_add_mul {w k : Nat} (h : w ≤ k) (a v : Nat) : digitField w (a * 10 ^ k + v) = digitField w v := by
  induction w with
  | zero => rfl
  | succ w ih =>
    have hsplit : a * 10 ^ k + v = v + 10 ^ w * (10 * (a * 10 ^ (k - (w + 1)))) := by
      have hpow : (10 : Nat) ^ k = 10 ^ w * 10 * 10 ^ (k - (w + 1)) := by
        rw [← pow_succ, ← pow_add, Nat.add_sub_cancel' h]
      rw [hpow]; ring
    have hdigit : (a * 10 ^ k + v) / 10 ^ w % 10 = v / 10 ^ w % 10 := by
      rw [hsplit, Nat.add_mul_div_left _ _ (by positivity), Nat.add_mul_mod_self_left]
    rw [digitField, digitField, hdigit, ih (Nat.le_of_succ_le h)]

theorem digitsValue_lt {s : Bytes} (h : s.all isDigit = true) : digitsValue s < 10 ^ s.length := by
  induction s with
  | nil => decide
  | cons b s ih =>
    rw [List.all_cons, Bool.and_eq_true] at h
    obtain ⟨hb, hs⟩ := h
    have hdigit : b.toNat - 0x30 ≤ 9 := Nat.le_of_lt_succ (digitByte_of_isDigit hb).1
    calc digitsValue (b :: s) < (b.toNat - 0x30) * 10 ^ s.length + 10 ^ s.length := Nat.add_lt_add_left (ih hs) _
      _ ≤ 9 * 10 ^ s.length + 10 ^ s.length := by gcongr
      _ = 10 ^ (b :: s).length := by rw [List.length_cons, pow_succ]; ring

/-- A string of digits is the field of its value. -/
theorem digitField_digitsValue {s : Bytes} (h : s.all isDigit = true) : digitField s.length (digitsValue s) = s := by
  induction s with
  | nil => rfl
  | cons b s ih =>
    rw [List.all_cons, Bool.and_eq_true] at h
    obtain ⟨hb, hs⟩ := h
    obtain ⟨hlt, hbyte⟩ := digitByte_of_isDigit hb
    have hlead : digitsValue (b :: s) / 10 ^ s.length % 10 = b.toNat - 0x30 := by
      rw [digitsValue, Nat.add_comm, Nat.add_mul_div_right _ _ (by positivity), Nat.div_eq_of_lt (digitsValue_lt hs),
        Nat.zero_add, Nat.mod_eq_of_lt hlt]
    rw [List.length_cons, digitField, hlead, hbyte, digitsValue, digitField_add_mul le_rfl, ih hs]

/-- `decodeFixed` accepts exactly the fields of the values that have `w` digits (40_codec.md R143). -/
theorem decodeFixed_eq_some_iff {s : Bytes} {w n : Nat} :
    decodeFixed s w = some n ↔ n < 10 ^ w ∧ digitField w n = s := by
  rw [decodeFixed, Option.ite_none_right_eq_some, Option.some_inj]
  constructor
  · rintro ⟨⟨rfl, hs⟩, rfl⟩
    exact ⟨digitsValue_lt hs, digitField_digitsValue hs⟩
  · rintro ⟨hlt, rfl⟩
    exact ⟨⟨digitField_length w n, all_isDigit_digitField w n⟩,
      (digitsValue_digitField w n).trans (Nat.mod_eq_of_lt hlt)⟩

theorem all_isDigit_encodeByte (v : Byte) : (encodeByte v).all isDigit = true :=
  encodeByte_eq_digitField v ▸ all_isDigit_digitField 3 _

theorem all_isDigit_encodeFixed8Digit (v : Nat) : (encodeFixed8Digit v).all isDigit = true :=
  encodeFixed8Digit_eq_digitField v ▸ all_isDigit_digitField 8 v

theorem all_isDigit_encodeData (data : Bytes) : (encodeData data).all isDigit = true := by
  rw [encodeData, List.all_flatMap, List.all_eq_true]
  exact fun v _ => all_isDigit_encodeByte v

theorem ne_of_isDigit {b c : Byte} (hb : isDigit b = true) (hc : isDigit c = false) : b ≠ c := by
  rintro rfl
  exact absurd hb (by simp [hc])

end Sys2Proof.Proofs
end

