-- ==== Sys2Proof/Proofs/RequestDecoder.lean ====
section
/-! PROOF. The request decoder and the encoder are each other's inverse (30_encoding.md R100 to R112): one `↔` per
reader of the decoder says that it answers exactly what its string encodes, and both directions are read off them. -/

namespace Sys2Proof.Proofs
open Sys2Proof Sys2Proof.Machine

/-! ## The readers of the fields -/

theorem takeField_eq_ok_iff {w v : Nat} {s rest : Bytes} :
    takeField w s = .ok (v, rest) ↔ v < 10 ^ w ∧ digitField w v ++ rest = s := by
  constructor
  · intro h
    unfold takeField at h
    split at h
    · cases h
    · split at h
      · next hv =>
        cases h
        obtain ⟨hlt, hfield⟩ := decodeFixed_eq_some_iff.1 hv
        exact ⟨hlt, by rw [hfield, List.take_append_drop]⟩
      · cases h
  · rintro ⟨hlt, rfl⟩
    have hlen : ¬ (digitField w v ++ rest).length < w := by simp
    rw [takeField, if_neg hlen, List.take_left' (digitField_length w v), List.drop_left' (digitField_length w v),
      decodeFixed_eq_some_iff.2 ⟨hlt, rfl⟩]

/-- An address field (30_encoding.md R105, R106). -/
theorem takeAddress_eq_ok_iff {addr : Nat} {s rest : Bytes} :
    takeField 8 s = .ok (addr, rest) ↔ addr < 10 ^ 8 ∧ encodeFixed8Digit addr ++ rest = s := by
  rw [encodeFixed8Digit_eq_digitField, takeField_eq_ok_iff]

theorem takeByteField_eq_ok_iff {v : Byte} {s rest : Bytes} :
    takeByteField s = .ok (v, rest) ↔ encodeByte v ++ rest = s := by
  rw [encodeByte_eq_digitField]
  constructor
  · intro h
    unfold takeByteField at h
    split at h
    · next n _ hn =>
      split at h
      · next hle =>
        cases h
        have htoNat : (BitVec.ofNat 8 n).toNat = n := by rw [BitVec.toNat_ofNat]; omega
        rw [htoNat]
        exact (takeField_eq_ok_iff.1 hn).2
      · cases h
    · cases h
  · intro h
    have hlt : v.toNat < 256 := v.isLt
    have hfield : takeField 3 s = .ok (v.toNat, rest) := takeField_eq_ok_iff.2 ⟨by omega, h⟩
    rw [takeByteField, hfield]
    simp only [if_pos (Nat.le_of_lt_succ hlt), BitVec.ofNat_toNat, BitVec.setWidth_eq]

theorem takeEnd_eq_ok_iff {i j : Instr} {s rest : Bytes} :
    takeEnd i s = .ok (j, rest) ↔ j = i ∧ [chHash] ++ rest = s := by
  cases s with
  | nil => simp [takeEnd]
  | cons b s =>
    by_cases hb : b = chHash
    · simp [takeEnd, hb, eq_comm]
    · simp [takeEnd, hb, Ne.symm hb]

theorem encodeData_cons (v : Byte) (data : Bytes) : encodeData (v :: data) = encodeByte v ++ encodeData data := rfl

theorem decodeData_encodeData (data : Bytes) : decodeData (encodeData data) = .ok data := by
  induction data with
  | nil => rfl
  | cons v data ih =>
    have hv : takeByteField (encodeByte v) = .ok (v, []) := takeByteField_eq_ok_iff.2 (List.append_nil _)
    rw [encodeByte] at hv
    rw [encodeData_cons, encodeByte, List.cons_append, List.cons_append, List.cons_append, List.nil_append, decodeData,
      hv, ih]

theorem encodeData_of_decodeData {s data : Bytes} (h : decodeData s = .ok data) : encodeData data = s := by
  induction s using decodeData.induct generalizing data with
  | case1 => cases h; rfl
  | case2 a b c rest v unread hv vs hvs ih =>
    have hfield : encodeByte v ++ unread = [a, b, c] := takeByteField_eq_ok_iff.1 hv
    have hunread : unread = [] := by
      have hlen := congrArg List.length hfield
      rw [encodeByte, List.length_append] at hlen
      exact List.eq_nil_of_length_eq_zero (Nat.add_left_cancel hlen)
    rw [hunread, List.append_nil] at hfield
    rw [decodeData, hv, hvs] at h
    cases h
    rw [encodeData_cons, ih hvs, hfield]
    rfl
  | case3 a b c rest v unread hv e he _ => rw [decodeData, hv, he] at h; cases h
  | case4 a b c rest e he => rw [decodeData, he] at h; cases h
  | case5 s hnil hthree => rw [decodeData] at h <;> [cases h; exact hnil; exact hthree]

theorem decodeData_eq_ok_iff {s data : Bytes} : decodeData s = .ok data ↔ encodeData data = s :=
  ⟨encodeData_of_decodeData, fun h => h ▸ decodeData_encodeData data⟩

/-! ## The fields of each request -/

/-- The fields of a request: what stands between its tag and its `#` (30_encoding.md R100 to R106). -/
def fieldsOf : Instr → Bytes
  | .reqM model => [modelDigit model]
  | .reqFES start count => encodeByte start ++ encodeByte (BitVec.ofNat 8 count)
  | .reqW cks addr data => encodeByte cks ++ encodeFixed8Digit addr ++ encodeData data
  | .reqR addr len => encodeFixed8Digit addr ++ encodeByte len
  | _ => []

theorem encode_request {i : Instr} (h : iopOf i = .send) :
    encode i = [chDollar] ++ tagOf i ++ fieldsOf i ++ [chHash] := by
  cases i with
  | reqH => rfl
  | reqI => rfl
  | reqM model => rfl
  | reqFES start count => rfl
  | reqW cks addr data => rfl
  | reqR addr len => rfl
  | _ => cases h

theorem all_isDigit_fieldsOf (i : Instr) : (fieldsOf i).all isDigit = true := by
  cases i with
  | reqM model => cases model <;> rfl
  | reqFES start count => simp only [fieldsOf, List.all_append, all_isDigit_encodeByte, Bool.and_self]
  | reqW cks addr data =>
    simp only [fieldsOf, List.all_append, all_isDigit_encodeByte, all_isDigit_encodeFixed8Digit,
      all_isDigit_encodeData, Bool.and_self]
  | reqR addr len =>
    simp only [fieldsOf, List.all_append, all_isDigit_encodeByte, all_isDigit_encodeFixed8Digit, Bool.and_self]
  | _ => rfl

theorem wellFormed_reqFES_iff {p : Params} {start : Byte} {count : Nat} :
    (Instr.reqFES start count).wellFormed p = true ↔ (start = 0 ∧ 1 ≤ count) ∧ count ≤ 255 := by
  simp only [Instr.wellFormed, Bool.and_eq_true, beq_iff_eq, decide_eq_true_eq]

theorem wellFormed_reqW_iff {p : Params} {cks : Byte} {addr : Nat} {data : Bytes} :
    (Instr.reqW cks addr data).wellFormed p = true ↔
      addr < 10 ^ 8 ∧ 1 ≤ data.length ∧ data.length ≤ p.chunkSize := by
  simp only [Instr.wellFormed, Bool.and_eq_true, decide_eq_true_eq, and_assoc]

theorem wellFormed_reqR_iff {p : Params} {addr : Nat} {len : Byte} :
    (Instr.reqR addr len).wellFormed p = true ↔ addr < 10 ^ 8 ∧ 1 ≤ len.toNat ∧ len.toNat ≤ p.chunkSize := by
  simp only [Instr.wellFormed, Bool.and_eq_true, decide_eq_true_eq, and_assoc]

/-- `s` is the fields of the request `i`, its `#`, and `rest`. -/
def IsFrameTail (i : Instr) (rest s : Bytes) : Prop := fieldsOf i ++ ([chHash] ++ rest) = s

theorem decodeM_eq_ok_iff {s rest : Bytes} {i : Instr} :
    decodeM s = .ok (i, rest) ↔ (∃ model, i = .reqM model) ∧ IsFrameTail i rest s := by
  constructor
  · intro h
    unfold decodeM at h
    split at h
    · next d s =>
      split_ifs at h with he hf
      · obtain ⟨rfl, htail⟩ := takeEnd_eq_ok_iff.1 h
        exact ⟨⟨_, rfl⟩, he ▸ congrArg _ htail⟩
      · obtain ⟨rfl, htail⟩ := takeEnd_eq_ok_iff.1 h
        exact ⟨⟨_, rfl⟩, hf ▸ congrArg _ htail⟩
    · cases h
  · rintro ⟨⟨model, rfl⟩, rfl⟩
    cases model <;> rfl

theorem decodeFES_eq_ok_iff {p : Params} {s rest : Bytes} {i : Instr} :
    decodeFES s = .ok (i, rest) ↔
      (∃ start count, i = .reqFES start count) ∧ i.wellFormed p = true ∧ IsFrameTail i rest s := by
  constructor
  · intro h
    unfold decodeFES at h
    split at h
    · next start s1 hstart =>
      split at h
      · next count s2 hcount =>
        split_ifs at h with hrange
        obtain ⟨rfl, htail⟩ := takeEnd_eq_ok_iff.1 h
        have hle : count.toNat ≤ 255 := Nat.le_of_lt_succ count.isLt
        refine ⟨⟨_, _, rfl⟩, wellFormed_reqFES_iff.2 ⟨hrange, hle⟩, ?_⟩
        rw [IsFrameTail, fieldsOf, BitVec.ofNat_toNat, BitVec.setWidth_eq, List.append_assoc, htail,
          takeByteField_eq_ok_iff.1 hcount, takeByteField_eq_ok_iff.1 hstart]
      · cases h
    · cases h
  · rintro ⟨⟨start, count, rfl⟩, hwf, rfl⟩
    obtain ⟨hrange, hle⟩ := wellFormed_reqFES_iff.1 hwf
    have htoNat : (BitVec.ofNat 8 count).toNat = count := by rw [BitVec.toNat_ofNat]; omega
    rw [fieldsOf, List.append_assoc, decodeFES, takeByteField_eq_ok_iff.2 rfl]
    simp only [takeByteField_eq_ok_iff.2 rfl, htoNat, if_pos hrange, takeEnd_eq_ok_iff, true_and]

theorem decodeR_eq_ok_iff {p : Params} {s rest : Bytes} {i : Instr} :
    decodeR p s = .ok (i, rest) ↔
      (∃ addr len, i = .reqR addr len) ∧ i.wellFormed p = true ∧ IsFrameTail i rest s := by
  constructor
  · intro h
    unfold decodeR at h
    split at h
    · next addr s1 haddr =>
      split at h
      · next len s2 hlen =>
        split_ifs at h with hrange
        obtain ⟨rfl, htail⟩ := takeEnd_eq_ok_iff.1 h
        obtain ⟨hlt, hfield⟩ := takeAddress_eq_ok_iff.1 haddr
        refine ⟨⟨_, _, rfl⟩, wellFormed_reqR_iff.2 ⟨hlt, hrange⟩, ?_⟩
        rw [IsFrameTail, fieldsOf, List.append_assoc, htail, takeByteField_eq_ok_iff.1 hlen, hfield]
      · cases h
    · cases h
  · rintro ⟨⟨addr, len, rfl⟩, hwf, rfl⟩
    obtain ⟨haddr, hrange⟩ := wellFormed_reqR_iff.1 hwf
    rw [fieldsOf, List.append_assoc, decodeR, takeAddress_eq_ok_iff.2 ⟨haddr, rfl⟩]
    simp only [takeByteField_eq_ok_iff.2 rfl, if_pos hrange, takeEnd_eq_ok_iff, true_and]

/-- The data of a write request end at the first `#`: their fields hold none (30_encoding.md R109). -/
theorem takeWhile_dropWhile_encodeData (data rest : Bytes) :
    (encodeData data ++ ([chHash] ++ rest)).takeWhile (· != chHash) = encodeData data ∧
      (encodeData data ++ ([chHash] ++ rest)).dropWhile (· != chHash) = [chHash] ++ rest := by
  have hdata : ∀ b ∈ encodeData data, (b != chHash) = true := fun b hb =>
    bne_iff_ne.2 (ne_of_isDigit (List.all_eq_true.1 (all_isDigit_encodeData data) b hb) rfl)
  constructor
  · rw [List.takeWhile_append_of_pos hdata]; simp
  · rw [List.dropWhile_append_of_pos hdata]; simp

theorem decodeW_eq_ok_iff {p : Params} {s rest : Bytes} {i : Instr} :
    decodeW p s = .ok (i, rest) ↔
      (∃ cks addr data, i = .reqW cks addr data) ∧ i.wellFormed p = true ∧ IsFrameTail i rest s := by
  constructor
  · intro h
    unfold decodeW at h
    split at h
    · next cks s1 hcks =>
      split at h
      · next addr s2 haddr =>
        split at h
        · next data hdata =>
          split_ifs at h with hrange
          obtain ⟨rfl, htail⟩ := takeEnd_eq_ok_iff.1 h
          obtain ⟨hlt, hfield⟩ := takeAddress_eq_ok_iff.1 haddr
          refine ⟨⟨_, _, _, rfl⟩, wellFormed_reqW_iff.2 ⟨hlt, hrange⟩, ?_⟩
          rw [IsFrameTail, fieldsOf, List.append_assoc, htail, decodeData_eq_ok_iff.1 hdata,
            List.takeWhile_append_dropWhile, List.append_assoc, hfield, takeByteField_eq_ok_iff.1 hcks]
        · cases h
      · cases h
    · cases h
  · rintro ⟨⟨cks, addr, data, rfl⟩, hwf, rfl⟩
    obtain ⟨haddr, hrange⟩ := wellFormed_reqW_iff.1 hwf
    obtain ⟨htake, hdrop⟩ := takeWhile_dropWhile_encodeData data rest
    rw [fieldsOf, List.append_assoc, List.append_assoc, decodeW, takeByteField_eq_ok_iff.2 rfl]
    simp only [takeAddress_eq_ok_iff.2 ⟨haddr, rfl⟩, htake, hdrop, decodeData_encodeData, if_pos hrange,
      takeEnd_eq_ok_iff, true_and]

/-! ## Whole requests -/

/-- A frame followed by `rest`, cut after its tag. -/
theorem encode_append_of_isFrameTail {i : Instr} {rest s : Bytes} (hi : iopOf i = .send) (h : IsFrameTail i rest s) :
    encode i ++ rest = chDollar :: (tagOf i ++ s) := by
  obtain rfl := h
  rw [encode_request hi]
  simp only [List.append_assoc, List.cons_append, List.nil_append]

/-- A request the decoder reads is well-formed, and its encoding stands at the front of the string. -/
theorem encode_of_decodeRequest {p : Params} {s rest : Bytes} {i : Instr} (h : decodeRequest p s = .ok (i, rest)) :
    i.wellFormed p = true ∧ iopOf i = .send ∧ encode i ++ rest = s := by
  unfold decodeRequest at h
  split at h
  · next d t s =>
    split_ifs at h with hd hH hI hM hF hW hR <;> subst hd
    · obtain ⟨rfl, htail⟩ := takeEnd_eq_ok_iff.1 h
      exact ⟨rfl, rfl, hH ▸ encode_append_of_isFrameTail rfl htail⟩
    · obtain ⟨rfl, htail⟩ := takeEnd_eq_ok_iff.1 h
      exact ⟨rfl, rfl, hI ▸ encode_append_of_isFrameTail rfl htail⟩
    · obtain ⟨⟨_, rfl⟩, htail⟩ := decodeM_eq_ok_iff.1 h
      exact ⟨rfl, rfl, hM ▸ encode_append_of_isFrameTail rfl htail⟩
    · split at h
      · split_ifs at h with hES
        obtain ⟨rfl, rfl⟩ := hES
        obtain ⟨⟨_, _, rfl⟩, hwf, htail⟩ := (decodeFES_eq_ok_iff (p := p)).1 h
        exact ⟨hwf, rfl, hF ▸ encode_append_of_isFrameTail rfl htail⟩
      · cases h
    · obtain ⟨⟨_, _, _, rfl⟩, hwf, htail⟩ := decodeW_eq_ok_iff.1 h
      exact ⟨hwf, rfl, hW ▸ encode_append_of_isFrameTail rfl htail⟩
    · obtain ⟨⟨_, _, rfl⟩, hwf, htail⟩ := decodeR_eq_ok_iff.1 h
      exact ⟨hwf, rfl, hR ▸ encode_append_of_isFrameTail rfl htail⟩
  · cases h

/-- The tag selects the reader of the fields (30_encoding.md R109). -/
theorem decodeRequest_encode {p : Params} {i : Instr} (hwf : i.wellFormed p = true) (hi : iopOf i = .send)
    (rest : Bytes) : decodeRequest p (encode i ++ rest) = .ok (i, rest) := by
  rw [encode_append_of_isFrameTail (rest := rest) hi rfl]
  cases i with
  | reqH => rfl
  | reqI => rfl
  | reqM model => exact decodeM_eq_ok_iff.2 ⟨⟨model, rfl⟩, rfl⟩
  | reqFES start count => exact decodeFES_eq_ok_iff.2 ⟨⟨start, count, rfl⟩, hwf, rfl⟩
  | reqW cks addr data => exact decodeW_eq_ok_iff.2 ⟨⟨cks, addr, data, rfl⟩, hwf, rfl⟩
  | reqR addr len => exact decodeR_eq_ok_iff.2 ⟨⟨addr, len, rfl⟩, hwf, rfl⟩
  | _ => cases hi

theorem decodeAt_encode_request {p : Params} {i : Instr} (hwf : i.wellFormed p = true) (hi : iopOf i = .send) :
    decodeAt p (phaseOf i) (iopOf i) (encode i) = .ok i := by
  have hread := decodeRequest_encode hwf hi []
  rw [List.append_nil] at hread
  rw [hi, decodeAt, hread]
  exact if_pos rfl

/-- A response is its string, whatever the phase's `LinkRead` returned (20_memory.md R78). -/
theorem decodeAt_encode_response {p : Params} {i : Instr} (hwf : i.wellFormed p = true) (hi : iopOf i = .recv) :
    decodeAt p (phaseOf i) (iopOf i) (encode i) = .ok i := by
  cases i with
  | rspHELLO res => cases res <;> [rfl; cases hwf]
  | rspINFO res => cases res <;> [rfl; cases hwf]
  | rspMODEL res => cases res <;> [rfl; cases hwf]
  | rspERASED res => cases res <;> [rfl; cases hwf]
  | rspWRITED res => cases res <;> [rfl; cases hwf]
  | rspREADBACK res => cases res <;> [rfl; cases hwf]
  | _ => cases hi

/-- Settles O8: a request is read by the reader its tag selects, a response is its string. -/
theorem decodeInvertsEncode : Obligations.DecodeInvertsEncode := by
  intro p i hwf
  refine ⟨?_, decodeRequest_encode hwf⟩
  cases hi : iopOf i with
  | send => exact hi ▸ decodeAt_encode_request hwf hi
  | recv => exact hi ▸ decodeAt_encode_response hwf hi

/-! ## Whole strings without a phase -/

/-- Each row of the phaseless reading is guarded by its own well-formedness (log 11). -/
theorem encode_of_decodeResponse {p : Params} {r : Bytes} {i : Instr} (h : decodeResponse p r = .ok i) :
    i.wellFormed p = true ∧ encode i = r := by
  unfold decodeResponse at h
  split_ifs at h with hHello hWrited hModel hReadback hErased hInfo <;> cases h
  · exact ⟨hHello, rfl⟩
  · exact ⟨hWrited, rfl⟩
  · exact ⟨hModel, rfl⟩
  · exact ⟨hReadback, rfl⟩
  · exact ⟨hErased, rfl⟩
  · exact ⟨hInfo, rfl⟩

theorem encode_of_decode {p : Params} {s : Bytes} {i : Instr} (h : decode p s = .ok i) :
    i.wellFormed p = true ∧ encode i = s := by
  unfold decode at h
  split at h
  · split at h
    · next hread =>
      cases h
      obtain ⟨hwf, -, hs⟩ := encode_of_decodeRequest hread
      exact ⟨hwf, by rwa [List.append_nil] at hs⟩
    · cases h
    · cases h
  · exact encode_of_decodeResponse h

/-- Settles O9: every reader of the decoder answers only what its string encodes. -/
theorem decodedStringsAreEncodings : Obligations.DecodedStringsAreEncodings :=
  ⟨fun _ _ _ _ => encode_of_decodeRequest, fun _ _ _ => encode_of_decode⟩

/-- Settles O10: each word is evaluated. -/
theorem writtenOutWordsDecode : Obligations.WrittenOutWordsDecode :=
  ⟨by decide, by decide, by decide, by decide, by decide, by decide, by decide⟩

end Sys2Proof.Proofs
end

