-- ==== Sys2Proof/Proofs/FrameStructure.lean ====
section
/-! PROOF. The structure of a request frame and its length (30_encoding.md R100, R107). -/

namespace Sys2Proof.Proofs
open Sys2Proof Sys2Proof.Machine

/-- A character that is no digit stands in no field. -/
theorem count_fieldsOf {c : Byte} (i : Instr) (hc : isDigit c = false) : (fieldsOf i).count c = 0 :=
  List.count_eq_zero.2 fun h => ne_of_isDigit (List.all_eq_true.1 (all_isDigit_fieldsOf i) c h) hc rfl

theorem count_encode_request {c : Byte} {i : Instr} (hi : iopOf i = .send) (hc : isDigit c = false)
    (htag : (tagOf i).count c = 0) : (encode i).count c = [chDollar, chHash].count c := by
  rw [encode_request hi]
  simp only [List.count_append, htag, count_fieldsOf i hc, Nat.add_zero]
  exact List.count_append.symm

theorem tagOf_holds_no_delimiter (i : Instr) : (tagOf i).count chDollar = 0 ∧ (tagOf i).count chHash = 0 := by
  cases i <;> exact ⟨rfl, rfl⟩

theorem encode_length_request {i : Instr} (hi : iopOf i = .send) : (encode i).length = tableLength i := by
  cases i with
  | reqW cks addr data => exact buildW_length cks addr data
  | reqH | reqI | reqM | reqFES | reqR => rfl
  | _ => cases hi

/-- Settles O7: the fields between the tag and the `#` are digits, so neither delimiter stands in them. -/
theorem requestFramesHaveTheFrameStructure : Obligations.RequestFramesHaveTheFrameStructure := by
  intro p i _ hi
  obtain ⟨hdollar, hhash⟩ := tagOf_holds_no_delimiter i
  exact ⟨⟨fieldsOf i, all_isDigit_fieldsOf i, encode_request hi⟩, count_encode_request hi rfl hdollar,
    count_encode_request hi rfl hhash, encode_length_request hi⟩

end Sys2Proof.Proofs
end

