-- ==== Sys2Proof/Proofs/EmittedFrames.lean ====
section
/-! PROOF. The frames a step hands to the Link (20_memory.md R79, 30_encoding.md R113): only a Tx step hands one over,
and it is the encoding of the request the engine's registers give. -/

namespace Sys2Proof.Proofs
open Sys2Proof Sys2Proof.Machine

/-- The frame of a `LinkWrite`, taken or not. -/
def frameOf : PortEvent → Option Bytes
  | .tx f => some f
  | .txErr f => some f
  | _ => none

/-- The frames a step hands to the Link, taken or not. -/
def emittedFrames (s t : State) : List Bytes := (newEvents s t).filterMap frameOf

theorem mem_emittedFrames_iff {s t : State} {f : Bytes} :
    f ∈ emittedFrames s t ↔ .tx f ∈ newEvents s t ∨ .txErr f ∈ newEvents s t := by
  rw [emittedFrames, List.mem_filterMap]
  constructor
  · rintro ⟨e, he, hf⟩
    cases e with
    | tx g => cases hf; exact .inl he
    | txErr g => cases hf; exact .inr he
    | _ => cases hf
  · rintro (he | he)
    · exact ⟨_, he, rfl⟩
    · exact ⟨_, he, rfl⟩

/-- The events a step adds to the record are those appended to it. -/
theorem emittedFrames_of_trace {s t : State} {es : List PortEvent} (h : t.trace = s.trace ++ es) :
    emittedFrames s t = es.filterMap frameOf := by
  rw [emittedFrames, newEvents, h, List.drop_left]

theorem not_emitted_of_trace_eq {s t : State} {f : Bytes} (h : t.trace = s.trace) : f ∉ emittedFrames s t := by
  rw [emittedFrames_of_trace (h.trans (List.append_nil _).symm)]
  exact List.not_mem_nil

theorem not_emitted_of_trace {s t : State} {f : Bytes} (es : List PortEvent) (h : t.trace = s.trace ++ es)
    (hes : es.filterMap frameOf = []) : f ∉ emittedFrames s t := by
  rw [emittedFrames_of_trace h, hes]
  exact List.not_mem_nil

theorem not_emitted_startSession (cfg : StartCfg) (s : State) (f : Bytes) :
    f ∉ emittedFrames s (startSession cfg s) := by
  obtain ⟨-, e⟩ | ⟨-, -, e⟩ | ⟨-, -, s1, rfl, ⟨-, e⟩ | ⟨-, s2, rfl, ⟨-, e⟩ | ⟨-, e⟩⟩⟩ := startSession_cases cfg s <;>
    rw [e]
  · exact not_emitted_of_trace_eq rfl
  · exact not_emitted_of_trace_eq rfl
  · exact not_emitted_of_trace [.fileSize s.file.length] rfl rfl
  · exact not_emitted_of_trace [.fileSize s.file.length, .linkIsOpen s.linkOpen] (List.append_assoc _ _ _) rfl
  · exact not_emitted_of_trace [.fileSize s.file.length, .linkIsOpen s.linkOpen] (List.append_assoc _ _ _) rfl

/-- A response adds the progress of a verified read-back to the record, or nothing. -/
theorem responseEnd_trace {i : Instr} {r : Bytes} {s t : State} (h : ResponseEnd i r s t) :
    t.trace = s.trace ∨ ∃ percent, t.trace = s.trace ++ [.progress percent] := by
  rcases h with ⟨code, -, -, rfl⟩ | ⟨-, -, rfl⟩ | ⟨-, -, -, rfl⟩ | ⟨-, rfl⟩ | ⟨-, rfl⟩ | ⟨-, rfl⟩ | ⟨-, rfl, -⟩
  · exact .inl rfl
  · exact .inl rfl
  · exact .inl rfl
  · exact .inl rfl
  · exact .inl rfl
  · exact .inl rfl
  · exact .inr ⟨_, rfl⟩

/-- `f` is the frame of a request the engine's registers give in their phase, and it has one (41_session.md R208). -/
def IsEngineFrame (s : State) (f : Bytes) : Prop :=
  ∃ i, iopOf i = .send ∧ s.ph = phaseOf i ∧ EngineRequest s i ∧
    (∀ start count, i = .reqFES start count → count ≤ 255) ∧ f = encode i

theorem engineEnd_emits {s t : State} {f : Bytes} (h : EngineEnd s t) (hf : f ∈ emittedFrames s t) :
    IsEngineFrame s f := by
  cases h with
  | wait hi hp e => subst e; exact absurd hf (not_emitted_of_trace_eq rfl)
  | done hi hp hn e => subst e; exact absurd hf (not_emitted_of_trace [_] rfl rfl)
  | fetched hi hp hn e => subst e; exact absurd hf (not_emitted_of_trace [_] rfl rfl)
  | refused hi hp hc e => subst e; exact absurd hf (not_emitted_of_trace_eq rfl)
  | sent i ws n hi hp hs hr hc hl e =>
    subst e
    rw [emittedFrames_of_trace (es := [.tx (encode i)]) rfl] at hf
    exact ⟨i, hs, hp, hr, hc, List.mem_singleton.1 hf⟩
  | unsent i ws n hi hp hs hr hc hl e =>
    subst e
    rw [emittedFrames_of_trace (es := [.txErr (encode i)]) rfl] at hf
    exact ⟨i, hs, hp, hr, hc, List.mem_singleton.1 hf⟩
  | unread rs n hi hp e => subst e; exact absurd hf (not_emitted_of_trace [_] rfl rfl)
  | response i r rs n hi hp hpi hm hl e =>
    rcases responseEnd_trace e with ht | ⟨percent, ht⟩
    · exact absurd hf (not_emitted_of_trace [_] ht rfl)
    · exact absurd hf (not_emitted_of_trace [_, .progress percent] (ht.trans (List.append_assoc _ _ _)) rfl)

/-- No move of the Host hands a frame to the Link. -/
theorem step_emits {s t : State} {f : Bytes} (h : step s = .next t) (hf : f ∈ emittedFrames s t) :
    IsEngineFrame s f := by
  cases step_ends s t h with
  | terminate ms hm e => subst e; exact absurd hf (not_emitted_of_trace_eq rfl)
  | start ms cfg hm hp e => subst e; exact absurd hf (not_emitted_startSession cfg { s with hostMoves := ms } f)
  | openFile ms file pos hp e => subst e; exact absurd hf (not_emitted_of_trace_eq rfl)
  | openLink ms ok hp e => subst e; exact absurd hf (not_emitted_of_trace_eq rfl)
  | engine ms hq e => exact engineEnd_emits (s := { s with hostMoves := ms }) e hf

/-- Settles O36: the frame is that of a request the engine's registers give, which the invariant makes well-formed. -/
theorem engineEmitsOnlyLegalRequests : Obligations.EngineEmitsOnlyLegalRequests := by
  intro s t f hinv h hf
  obtain ⟨i, hi, hp, hreq, hcount, rfl⟩ := step_emits h (mem_emittedFrames_iff.2 hf)
  exact ⟨i, wellFormed_of_engineRequest hinv hp hreq hcount, hi, rfl⟩

end Sys2Proof.Proofs
end

