-- ==== Sys2Proof/Proofs/Codec.lean ====
section
/-! PROOF. The checksum, the fixed-width fields and the reference string (40_codec.md R140 to R143, R156). -/

namespace Sys2Proof.Proofs
open Sys2Proof Sys2Proof.Machine

/-! ## The checksum -/

theorem checksum_toNat (c : Bytes) : (checksum c).toNat = (c.map BitVec.toNat).sum % 256 :=
  BitVec.toNat_ofNat ..

theorem checksum_eq_of_perm {c d : Bytes} (h : c.Perm d) : checksum c = checksum d :=
  congrArg (BitVec.ofNat 8) (h.map BitVec.toNat).sum_eq

/-- Settles O1: the checksum depends on the sum alone, which a permutation keeps. -/
theorem checksumIsTheSumMod256 : Obligations.ChecksumIsTheSumMod256 :=
  ⟨checksum_toNat, fun _ _ => checksum_eq_of_perm⟩

/-! ## The address field -/

theorem digitField_mod (w v : Nat) : digitField w (v % 10 ^ w) = digitField w v := by
  conv_rhs => rw [← Nat.div_add_mod' v (10 ^ w), digitField_add_mul le_rfl]

theorem encodeFixed8Digit_getD_toNat (v : Nat) {k : Nat} (hk : k < 8) :
    ((encodeFixed8Digit v).getD k 0).toNat = 0x30 + v / 10 ^ (7 - k) % 10 := by
  have hdigit : (encodeFixed8Digit v).getD k 0 = digitByte (v / 10 ^ (7 - k) % 10) := by
    simp [encodeFixed8Digit, hk]
  rw [hdigit, digitByte_toNat (Nat.mod_lt _ (by decide))]

/-- Settles O2: the digits are those of the definition, and `digitField` loses the leading ones. -/
theorem addressFieldDropsLeadingDigits : Obligations.AddressFieldDropsLeadingDigits := by
  intro v
  refine ⟨digitField_length 8 v, fun k hk => encodeFixed8Digit_getD_toNat v hk, ?_⟩
  rw [encodeFixed8Digit_eq_digitField, encodeFixed8Digit_eq_digitField, digitField_mod]

/-! ## The decoder of a field -/

theorem isDigit_eq_false_iff {b : Byte} : isDigit b = false ↔ b.toNat < 0x30 ∨ 0x39 < b.toNat := by
  simp only [isDigit, Bool.and_eq_false_iff, decide_eq_false_iff_not, not_le]

theorem decodeFixed_eq_none_iff {s : Bytes} {w : Nat} :
    decodeFixed s w = none ↔ s.length ≠ w ∨ ∃ b ∈ s, b.toNat < 0x30 ∨ 0x39 < b.toNat := by
  simp only [decodeFixed, ite_eq_right_iff, reduceCtorEq, imp_false, not_and_or, Bool.not_eq_true,
    List.all_eq_false, isDigit_eq_false_iff, ne_eq]

/-- The digit at place `k` of `w` counts `10 ^ (w - 1 - k)` times. -/
theorem digitsValue_eq_sum (s : Bytes) :
    digitsValue s = ∑ k ∈ Finset.range s.length, ((s.getD k 0).toNat - 0x30) * 10 ^ (s.length - 1 - k) := by
  induction s with
  | nil => rfl
  | cons b s ih =>
    have hplace : ∀ k, s.length - 1 - k = s.length - (k + 1) := fun k => by omega
    simp only [digitsValue, ih, hplace, List.length_cons, Finset.sum_range_succ', List.getD_cons_succ,
      List.getD_cons_zero, Nat.add_sub_cancel, Nat.sub_zero]
    exact Nat.add_comm _ _

theorem length_eq_and_digitsValue_of_decodeFixed {s : Bytes} {w n : Nat} (h : decodeFixed s w = some n) :
    s.length = w ∧ digitsValue s = n := by
  obtain ⟨hlt, rfl⟩ := decodeFixed_eq_some_iff.1 h
  exact ⟨digitField_length w n, (digitsValue_digitField w n).trans (Nat.mod_eq_of_lt hlt)⟩

theorem decodeFixed_encodeByte (v : Byte) : decodeFixed (encodeByte v) 3 = some v.toNat :=
  decodeFixed_eq_some_iff.2 ⟨v.isLt.trans (by decide), (encodeByte_eq_digitField v).symm⟩

theorem decodeFixed_encodeFixed8Digit {v : Nat} (h : v < 10 ^ 8) : decodeFixed (encodeFixed8Digit v) 8 = some v :=
  decodeFixed_eq_some_iff.2 ⟨h, (encodeFixed8Digit_eq_digitField v).symm⟩

theorem withField_of_verdict {f : Bytes} {w : Nat} (s : State) (k : Nat → Out) (h : decodeFixed f w = none) :
    withField f w s k = .next (abort .malformedField .none s) := by
  rw [withField, h]

/-- Settles O3: a value is the sum over the places, and both round trips are read off `decodeFixed_eq_some_iff`. -/
theorem decodeFixedGivesValueOrVerdict : Obligations.DecodeFixedGivesValueOrVerdict := by
  refine ⟨fun s w => decodeFixed_eq_none_iff, fun s w n h => ?_, decodeFixed_encodeByte,
    fun v => decodeFixed_encodeFixed8Digit, fun f w s k h => ⟨_, _, withField_of_verdict s k h⟩⟩
  obtain ⟨rfl, rfl⟩ := length_eq_and_digitsValue_of_decodeFixed h
  exact digitsValue_eq_sum s

/-! ## The reference string -/

theorem buildW_eq_buildRef (cks : Byte) (addr : Nat) (data : Bytes) :
    buildW cks addr data = chDollar :: chW :: (buildRef cks addr data ++ [chHash]) := by
  simp only [buildW, buildRef, List.append_assoc, List.cons_append, List.nil_append]

theorem buildRef_length (cks : Byte) (addr : Nat) (data : Bytes) :
    (buildRef cks addr data).length = 11 + 3 * data.length := by
  have hframe := buildW_length cks addr data
  rw [buildW_eq_buildRef] at hframe
  simp only [List.length_cons, List.length_append, List.length_nil] at hframe
  omega

/-- Settles O4: the write frame is `$`, `W`, the reference string and `#`. -/
theorem referenceIsTheWriteFrameStripped : Obligations.ReferenceIsTheWriteFrameStripped := by
  intro cks addr data
  refine ⟨?_, buildRef_length cks addr data⟩
  rw [buildW_eq_buildRef, List.drop_succ_cons, List.drop_succ_cons, List.drop_zero, List.dropLast_concat]

end Sys2Proof.Proofs
end

