-- ==== Sys2Proof/Proofs/ResponseChecks.lean ====
section
/-! PROOF. What the checks of the erase response and of the read-back response accept (40_codec.md R163, R165, R166,
30_encoding.md R112). -/

namespace Sys2Proof.Proofs
open Sys2Proof Sys2Proof.Machine

/-! ## The erase response -/

theorem containsBytes_iff_isInfix (t s : Bytes) : containsBytes t s = true ↔ t <:+: s := by
  induction s with
  | nil => rw [containsBytes, List.isEmpty_iff, List.infix_nil]
  | cons b s ih => rw [containsBytes, Bool.or_eq_true, List.isPrefixOf_iff_prefix, ih, List.infix_cons_iff]

/-- Settles O5: the model's search is the library's substring relation. -/
theorem eraseResponseIsASubstringTest : Obligations.EraseResponseIsASubstringTest := by
  intro r
  rw [valErased, containsBytes_iff_isInfix]
  exact exists₂_congr fun _ _ => eq_comm

/-! ## The read-back response -/

theorem rbPayload_append {p : Params} {h m t : Bytes} (hh : h.length = p.rbHdrLen) (ht : t.length = p.rbTrailLen) :
    rbPayload p (h ++ m ++ t) = m := by
  have hlen : (h ++ m ++ t).length - p.rbTrailLen - p.rbHdrLen = m.length := by
    rw [List.length_append, List.length_append, hh, ht]
    omega
  rw [rbPayload, hlen, List.append_assoc, List.drop_left' hh, List.take_left' rfl]

/-- A response long enough for a header and a trailer is its header, its payload and its trailer. -/
theorem exists_eq_append_rbPayload {p : Params} {r : Bytes} (hlen : p.rbHdrLen + p.rbTrailLen ≤ r.length) :
    ∃ h t : Bytes, h.length = p.rbHdrLen ∧ t.length = p.rbTrailLen ∧ r = h ++ rbPayload p r ++ t := by
  refine ⟨r.take p.rbHdrLen, (r.drop p.rbHdrLen).drop (r.length - p.rbTrailLen - p.rbHdrLen), ?_, ?_, ?_⟩
  · rw [List.length_take]; omega
  · rw [List.length_drop, List.length_drop]; omega
  · rw [rbPayload, List.append_assoc, List.take_append_drop, List.take_append_drop]

theorem valRbShape_iff {p : Params} {r : Bytes} {n : Nat} :
    valRbShape p r n = true ↔ r.length = p.rbHdrLen + (11 + 3 * n) + p.rbTrailLen := by
  rw [valRbShape, beq_iff_eq, expectedLen]
  omega

theorem valRbVerify_iff {p : Params} {r ref : Bytes} : valRbVerify p r ref = true ↔ rbPayload p r = ref :=
  beq_iff_eq

/-- Both checks together, for a reference string of the length R156 gives it. -/
theorem readbackChecks_iff {p : Params} {r ref : Bytes} {n : Nat} (href : ref.length = 11 + 3 * n) :
    (valRbShape p r n = true ∧ valRbVerify p r ref = true) ↔
      ∃ h t : Bytes, h.length = p.rbHdrLen ∧ t.length = p.rbTrailLen ∧ r = h ++ ref ++ t := by
  rw [valRbShape_iff, valRbVerify_iff]
  constructor
  · rintro ⟨hshape, rfl⟩
    exact exists_eq_append_rbPayload (by omega)
  · rintro ⟨h, t, hh, ht, rfl⟩
    refine ⟨?_, rbPayload_append hh ht⟩
    rw [List.length_append, List.length_append, hh, href, ht]

theorem rbLengths_of_inRange {p : Params} (h : p.inRange = true) : p.rbHdrLen = 6 ∧ p.rbTrailLen = 1 := by
  simp only [Params.inRange, Bool.and_eq_true, decide_eq_true_eq, beq_iff_eq] at h
  omega

/-- Settles O6: legal parameters make the header 6 bytes and the trailer one. -/
theorem readbackChecksIgnoreHeaderAndTrailer : Obligations.ReadbackChecksIgnoreHeaderAndTrailer := by
  intro p cks addr data r hp
  obtain ⟨hhdr, htrail⟩ := rbLengths_of_inRange hp
  rw [readbackChecks_iff (buildRef_length cks addr data), hhdr, htrail]
  constructor
  · rintro ⟨h, t, hh, ht, hr⟩
    obtain ⟨b, rfl⟩ := List.length_eq_one_iff.1 ht
    exact ⟨h, b, hh, hr⟩
  · rintro ⟨h, b, hh, hr⟩
    exact ⟨h, [b], hh, rfl, hr⟩

end Sys2Proof.Proofs
end

