-- ==== Sys2Proof/Proofs/Requests.lean ====
section
/-! PROOF. The Tx steps (41_session.md R202 to R213, R218): what a request leaves where the Link takes its frame and
where it does not, which frame the engine's registers give in each phase, and what a request leaves unchanged. -/

namespace Sys2Proof.Proofs
open Sys2Proof Sys2Proof.Machine

/-! ## A frame handed to the Link -/

/-- After the frame `f` has been handed to the Link, which answered `w` and is now as in `t` (41_session.md R218). -/
def afterFrame (w : WriteResult) (f : Bytes) (t : State) : State :=
  if w = .ok then frameSent f t else frameFailed f t

/-- The Link's answer does not depend on `DIAG_CMD`, and leaves it. -/
theorem drawWrite_of_diagCmd {s t : State} {w : WriteResult} (h : drawWrite s = (w, t)) (m : Memory) (n : Nat) :
    t.diagCmd = s.diagCmd ∧
      drawWrite { s with diagCmd := m, diagCmdLen := n } = (w, { t with diagCmd := m, diagCmdLen := n }) := by
  unfold drawWrite at h ⊢
  cases hws : s.linkWrites <;> rw [hws] at h <;> cases h <;> exact ⟨rfl, rfl⟩

theorem txSend_of_drawWrite {s t : State} {w : WriteResult} {f : Bytes} (h : drawWrite s = (w, t)) :
    txSend f { s with diagCmd := memPutBytes s.diagCmd 0 f, diagCmdLen := f.length } = afterFrame w f t := by
  obtain ⟨hdiag, hdraw⟩ := drawWrite_of_diagCmd h (memPutBytes s.diagCmd 0 f) f.length
  unfold txSend linkWrite afterFrame frameSent frameFailed
  rw [hdraw, hdiag]
  cases w <;> rfl

/-- The operands of a request have a frame, and it fits `DIAG_CMD` (10_state.md R46, 41_session.md R208). -/
def HasFrame (p : Params) : Instr → Prop
  | .reqFES _ count => count ≤ 255
  | .reqW _ _ data => data.length ≤ p.chunkSize
  | _ => True

theorem encode_length_of_hasFrame {p : Params} {i : Instr} (hi : iopOf i = .send) (hf : HasFrame p i) :
    (encode i).length ≤ 14 + 3 * p.chunkSize := by
  rw [encode_length_request hi]
  cases i with
  | reqW cks addr data => exact Nat.add_le_add_left (Nat.mul_le_mul_left 3 hf) 14
  | reqH | reqI | reqM | reqFES | reqR => rw [tableLength]; omega
  | _ => cases hi

/-- In its phase a request hands its frame over, and ends as the Link answers. -/
theorem exec_request {s t : State} {w : WriteResult} (hs : s.iop = .send) (hw : drawWrite s = (w, t)) (i : Instr)
    (hi : iopOf i = .send) (hf : HasFrame s.params i) (hp : s.ph = phaseOf i) :
    exec i s = .next (afterFrame w (encode i) t) := by
  refine (exec_request_next i s _ hi).2 ⟨hp, hs, .inr ⟨?_, ?_⟩⟩
  · rintro start count rfl; exact hf
  · exact (tx_next _ _ _).2 ⟨encode_length_of_hasFrame hi hf, (txSend_of_drawWrite hw).symm⟩

theorem exec_requests {s t : State} {w : WriteResult} (hs : s.iop = .send) (hw : drawWrite s = (w, t)) :
    (s.ph = .handshake → exec .reqH s = .next (afterFrame w buildH t)) ∧
    (s.ph = .info → exec .reqI s = .next (afterFrame w buildI t)) ∧
    (∀ model, s.ph = .model → exec (.reqM model) s = .next (afterFrame w (buildM model) t)) ∧
    (∀ start count, s.ph = .erase → count ≤ 255 →
      exec (.reqFES start count) s = .next (afterFrame w (buildFES start (BitVec.ofNat 8 count)) t)) ∧
    (∀ cks addr data, s.ph = .write → data.length ≤ s.params.chunkSize →
      exec (.reqW cks addr data) s = .next (afterFrame w (buildW cks addr data) t)) ∧
    (∀ addr len, s.ph = .readback → exec (.reqR addr len) s = .next (afterFrame w (buildR addr len) t)) :=
  ⟨exec_request hs hw .reqH rfl trivial, exec_request hs hw .reqI rfl trivial,
    fun model => exec_request hs hw (.reqM model) rfl trivial,
    fun start count hp hcount => exec_request hs hw (.reqFES start count) rfl hcount hp,
    fun cks addr data hp hlen => exec_request hs hw (.reqW cks addr data) rfl hlen hp,
    fun addr len => exec_request hs hw (.reqR addr len) rfl trivial⟩

/-- Settles O15: the Link's answer is OK. -/
theorem requestsHandTheirFrameOver : Obligations.RequestsHandTheirFrameOver := fun _ _ => exec_requests

/-- Settles O16: the Link's answer is `IoError`. -/
theorem failedFramesAbort : Obligations.FailedFramesAbort := fun _ _ => exec_requests

/-! ## The frames the engine builds -/

/-- A Tx step of the engine hands over the frame of the request that its registers give. -/
theorem engineStep_request {s t : State} {w : WriteResult} (hs : s.iop = .send) (hw : drawWrite s = (w, t))
    (i : Instr) (hi : iopOf i = .send) (hf : HasFrame s.params i) (hp : s.ph = phaseOf i)
    (hsel : select s = .run i s) : engineStep s = .next (afterFrame w (encode i) t) :=
  (engineStep_run s s i hsel).trans (exec_request hs hw i hi hf hp)

theorem encodeFixed8Digit_wireAddr (addr : Nat) : encodeFixed8Digit (wireAddr addr) = encodeFixed8Digit addr := by
  rw [encodeFixed8Digit_eq_digitField, encodeFixed8Digit_eq_digitField, wireAddr, digitField_mod]

theorem buildW_wireAddr (cks : Byte) (addr : Nat) (data : Bytes) :
    buildW cks (wireAddr addr) data = buildW cks addr data := by
  rw [buildW, encodeFixed8Digit_wireAddr, buildW]

theorem buildR_wireAddr (addr : Nat) (len : Byte) : buildR (wireAddr addr) len = buildR addr len := by
  rw [buildR, encodeFixed8Digit_wireAddr, buildR]

theorem currentChunk_length_le {s : State} {c : Bytes} (h : currentChunk s = .ok c) :
    c.length ≤ s.params.chunkSize := by
  have hfits := ((memRead_ok _ _ _ _ _).1 h).1
  rw [currentChunk_length h]
  rwa [Nat.zero_add] at hfits

theorem select_write {s : State} {c : Bytes} (hp : s.ph = .write) (hs : s.iop = .send) (hc : currentChunk s = .ok c) :
    select s = .run (.reqW s.cks (wireAddr s.addr) c) s := by
  simp only [select, hp, hs, transmit, operandsW, hc]

theorem engineStep_builds {s t : State} {w : WriteResult} (hs : s.iop = .send) (hw : drawWrite s = (w, t)) :
    (s.ph = .handshake → engineStep s = .next (afterFrame w buildH t)) ∧
    (s.ph = .info → engineStep s = .next (afterFrame w buildI t)) ∧
    (s.ph = .model → engineStep s = .next (afterFrame w (buildM s.cfgModel) t)) ∧
    (∀ c, s.ph = .write → currentChunk s = .ok c →
      engineStep s = .next (afterFrame w (buildW s.cks s.addr c) t)) ∧
    (s.ph = .readback → engineStep s = .next (afterFrame w (buildR s.addr s.clen) t)) := by
  refine ⟨fun hp => ?_, fun hp => ?_, fun hp => ?_, fun c hp hc => ?_, fun hp => ?_⟩
  · exact engineStep_request hs hw .reqH rfl trivial hp (by simp only [select, hp, hs])
  · exact engineStep_request hs hw .reqI rfl trivial hp (by simp only [select, hp, hs])
  · exact engineStep_request hs hw (operandsM s) rfl trivial hp (by simp only [select, hp, hs])
  · rw [← buildW_wireAddr]
    exact engineStep_request hs hw (.reqW s.cks (wireAddr s.addr) c) rfl (currentChunk_length_le hc) hp
      (select_write hp hs hc)
  · rw [← buildR_wireAddr]
    exact engineStep_request hs hw (operandsR s) rfl trivial hp (by simp only [select, hp, hs])

/-- Settles O17: the step is the engine's, from the state with the schedule's entry spent. -/
theorem engineBuildsFramesFromItsRegisters : Obligations.EngineBuildsFramesFromItsRegisters := by
  intro s t w hq hs hw
  obtain ⟨ms, hturn⟩ := hostTurn_state s
  rw [hturn] at hw
  rw [step_quiet s hq, hturn]
  exact engineStep_builds (s := { s with hostMoves := ms }) hs hw

/-! ## The count of an erase -/

theorem sectorSize_of_inRange {p : Params} (h : p.inRange = true) : p.sectorSize = 4096 := by
  simp only [Params.inRange, Bool.and_eq_true, beq_iff_eq] at h
  obtain ⟨⟨⟨⟨-, hsize⟩, -⟩, -⟩, -⟩ := h
  exact hsize

theorem operandsFES_of_inRange {s : State} (h : s.params.inRange = true) :
    operandsFES s = .reqFES 0 (s.fsize / 4096 + 1) := by
  rw [operandsFES, eraseStartSector_eq_zero h, sectorCount, sectorSize_of_inRange h]
  rfl

theorem select_erase {s : State} (hp : s.ph = .erase) (hs : s.iop = .send) (h : s.params.inRange = true) :
    select s = .run (.reqFES 0 (s.fsize / 4096 + 1)) s := by
  simp only [select, hp, hs, operandsFES_of_inRange h]

theorem engineStep_erase {s t : State} {w : WriteResult} (hp : s.ph = .erase) (hs : s.iop = .send)
    (h : s.params.inRange = true) (hw : drawWrite s = (w, t)) :
    (1044480 ≤ s.fsize → engineStep s = .next (refuse .sectorCountOver255 s)) ∧
    (s.fsize < 1044480 →
      engineStep s = .next (afterFrame w (buildFES 0 (BitVec.ofNat 8 (s.fsize / 4096 + 1))) t)) := by
  have hsel := select_erase hp hs h
  refine ⟨fun hlarge => ?_, fun hsmall => ?_⟩
  · have hcount : 255 < s.fsize / 4096 + 1 := by omega
    exact (engineStep_run s s _ hsel).trans
      ((exec_request_next _ s _ rfl).2 ⟨hp, hs, .inl ⟨_, _, rfl, hcount, rfl⟩⟩)
  · have hcount : s.fsize / 4096 + 1 ≤ 255 := by omega
    exact engineStep_request hs hw (.reqFES 0 (s.fsize / 4096 + 1)) rfl hcount hp hsel

/-- Settles O18: `FSIZE / 4096 + 1` is above 255 exactly from 1044480 on. -/
theorem eraseCountAbove255IsRefused : Obligations.EraseCountAbove255IsRefused := by
  intro s t w hq hp hs h hw
  obtain ⟨ms, hturn⟩ := hostTurn_state s
  rw [hturn] at hw
  rw [step_quiet s hq, hturn]
  exact engineStep_erase (s := { s with hostMoves := ms }) hp hs h hw

/-! ## What a request leaves unchanged -/

/-- `t` is `s` but for `DIAG_CMD` with its length, the phase, the error and reason registers, the Link's coming
answers to writes, and the record. -/
def SameButFrame (s t : State) : Prop :=
  t = { s with
    ph := t.ph, iop := t.iop, err := t.err, ioCause := t.ioCause, diagExp := t.diagExp, diagAct := t.diagAct
    rreason := t.rreason, diagCmd := t.diagCmd, diagCmdLen := t.diagCmdLen, linkWrites := t.linkWrites
    linkDraws := t.linkDraws, trace := t.trace }

/-- What a request that answers a next state leaves in `DIAG_CMD` and in the error and reason registers. -/
inductive RequestEnd (f : Bytes) (s t : State) : Prop
  | refused (hp : t.ph = .refused) (hcmd : t.diagCmd = s.diagCmd ∧ t.diagCmdLen = s.diagCmdLen ∧ t.iop = s.iop ∧
      t.trace = s.trace) (herr : t.err = s.err ∧ t.ioCause = s.ioCause ∧ t.diagExp = s.diagExp ∧ t.diagAct = s.diagAct)
  | sent (hp : t.ph = s.ph) (hcmd : t.diagCmd = memPutBytes s.diagCmd 0 f) (hreason : t.rreason = s.rreason)
      (herr : t.err = s.err ∧ t.ioCause = s.ioCause ∧ t.diagExp = s.diagExp ∧ t.diagAct = s.diagAct)
  | unsent (hp : t.ph = .aborted) (hcmd : t.diagCmd = memPutBytes s.diagCmd 0 f) (hreason : t.rreason = s.rreason)

theorem exec_request_ends {i : Instr} {s t : State} (hi : iopOf i = .send) (h : exec i s = .next t) :
    s.ph = phaseOf i ∧ SameButFrame s t ∧ RequestEnd (encode i) s t := by
  obtain ⟨hp, -, ⟨start, count, rfl, -, rfl⟩ | ⟨-, htx⟩⟩ := (exec_request_next i s t hi).1 h
  · exact ⟨hp, rfl, .refused rfl ⟨rfl, rfl, rfl, rfl⟩ ⟨rfl, rfl, rfl, rfl⟩⟩
  · obtain ⟨-, rfl⟩ := (tx_next _ _ _).1 htx
    obtain ⟨ws, n, e | e⟩ := txSend_cases (encode i)
      { s with diagCmd := memPutBytes s.diagCmd 0 (encode i), diagCmdLen := (encode i).length } <;> rw [e]
    · exact ⟨hp, rfl, .sent rfl rfl rfl ⟨rfl, rfl, rfl, rfl⟩⟩
    · exact ⟨hp, rfl, .unsent rfl rfl rfl⟩

theorem SameButFrame.bufOf_eq {s t : State} (h : SameButFrame s t) {b : Buffer} (hb : b ≠ .diagCmd) :
    bufOf t b = bufOf s b := by
  rw [h]
  cases b with
  | diagCmd => exact absurd rfl hb
  | _ => rfl

theorem RequestEnd.memGet_diagCmd {f : Bytes} {s t : State} (h : RequestEnd f s t) {a : Nat} (ha : f.length ≤ a) :
    memGet t.diagCmd a = memGet s.diagCmd a := by
  cases h with
  | refused _ hcmd => rw [hcmd.1]
  | sent _ hcmd | unsent _ hcmd => rw [hcmd, memGet_memPutBytes_outside _ _ _ _ (.inr (by omega))]

theorem RequestEnd.record_eq {f : Bytes} {s t : State} (h : RequestEnd f s t) (hp : t.ph ≠ .aborted) :
    t.err = s.err ∧ t.ioCause = s.ioCause ∧ t.diagExp = s.diagExp ∧ t.diagAct = s.diagAct := by
  cases h with
  | refused _ _ herr => exact herr
  | sent _ _ _ herr => exact herr
  | unsent hab => exact absurd hab hp

theorem RequestEnd.rreason_eq {f : Bytes} {s t : State} (h : RequestEnd f s t) (hp : t.ph ≠ .refused) :
    t.rreason = s.rreason := by
  cases h with
  | refused href => exact absurd href hp
  | sent _ _ hreason | unsent _ _ hreason => exact hreason

/-- A refusal comes before the frame (41_session.md R208). -/
theorem RequestEnd.untouched_of_refused {f : Bytes} {s t : State} (h : RequestEnd f s t) (hs : s.ph ≠ .refused)
    (hp : t.ph = .refused) :
    t.diagCmd = s.diagCmd ∧ t.diagCmdLen = s.diagCmdLen ∧ t.iop = s.iop ∧ t.trace = s.trace := by
  cases h with
  | refused _ hcmd => exact hcmd
  | sent hph => exact absurd (hph.symm.trans hp) hs
  | unsent hab => cases hab.symm.trans hp

/-- Settles O19: the registers no request writes are read off `SameButFrame`, the others off the three ends. -/
theorem requestsTouchOnlyTheirFrame : Obligations.RequestsTouchOnlyTheirFrame := by
  intro i s t hi h
  obtain ⟨hp, hsame, hend⟩ := exec_request_ends hi h
  have hrunning : s.ph ≠ .refused := by rw [hp]; cases i <;> nofun
  refine ⟨fun a => hend.memGet_diagCmd, fun b a hb => by rw [hsame.bufOf_eq hb], ?_, ?_, ?_, ?_, ?_, ?_, ?_, ?_, ?_, ?_,
    ?_, ?_, hend.record_eq, hend.rreason_eq, hend.untouched_of_refused hrunning, ?_, ?_, ?_, ?_, ?_⟩ <;> rw [hsame]

/-! ## An instruction outside its phase -/

/-- Settles O29: every meaning is guarded by the `(ph, iop)` of its instruction. -/
theorem instructionsStopOutsideTheirPhase : Obligations.InstructionsStopOutsideTheirPhase := by
  intro i s h
  cases i <;> exact whenEnabled_off _ _ s _ h

end Sys2Proof.Proofs
end

