-- ==== Sys2Proof/Proofs/Responses.lean ====
section
/-! PROOF. The Rx steps (41_session.md R203 to R214, R219): the one `LinkRead` of each, what the response on its
result leaves, and what it leaves unchanged. -/

namespace Sys2Proof.Proofs
open Sys2Proof Sys2Proof.Machine

/-! ## The read -/

/-- In RECV a transaction phase selects its `LinkRead` and its response on what that returns. -/
theorem select_receive {s : State} {mk : ReadResult → Instr} (hr : s.iop = .recv) (hm : responseOf s.ph = some mk) :
    select s = receive (readLimit s.params s.ph) mk s := by
  unfold select
  cases hp : s.ph <;> rw [hp] at hm <;> cases hm <;> simp only [hr, readLimit]

theorem engineStep_receive {s : State} {mk : ReadResult → Instr} (hr : s.iop = .recv)
    (hm : responseOf s.ph = some mk) :
    engineStep s =
      exec (mk (linkRead (readLimit s.params s.ph) s).1) (linkRead (readLimit s.params s.ph) s).2 := by
  rw [engineStep, select_receive hr hm, receive]

theorem stepReads {s : State} {mk : ReadResult → Instr} (hr : s.iop = .recv) (hm : responseOf s.ph = some mk) :
    StepReads (readLimit s.params s.ph) mk s := by
  intro hq
  obtain ⟨ms, hturn⟩ := hostTurn_state s
  rw [step_quiet s hq, hturn]
  exact engineStep_receive (s := { s with hostMoves := ms }) hr hm

/-- A failed read ends every response alike, and every response is read alike. -/
theorem response_reads {s : State} {mk : ReadResult → Instr} {ph : Phase} (hp : s.ph = ph) (hr : s.iop = .recv)
    (hm : responseOf ph = some mk) :
    exec (mk .ioError) s = .next (readFailed s) ∧ StepReads (readLimit s.params ph) mk s := by
  subst hp
  have hph : s.ph = phaseOf (mk .ioError) := (responseOf_spec _ _ _ hm).2.1.symm
  exact ⟨exec_read_ioError _ s hph hr (responseOf_ioError _ _ hm), stepReads hr hm⟩

/-! ## The six responses -/

/-- A validator's abort is the record the table gives (60_exceptions.md R261, R270). -/
theorem abort_received {code : ErrCode} {exp : Nat} {s : State} (r : Bytes) (hcode : code ≠ .ioError)
    (hexp : expLen (received r s) code = BitVec.ofNat 16 exp) :
    abort code .none (received r s) = rejected code exp r s := by
  rw [abort, rejected, abortedWith, hexp, if_neg hcode]
  rfl

/-- A validator `v` that accepts exactly where `P` holds decides between the accepted end and the abort. -/
theorem checked_response {i : Instr} {r : Bytes} {s accepted : State} {code : ErrCode} {exp : Nat} {v : Bool} {P : Prop}
    (h : exec i s = .next (if v = true then accepted else abort code .none (received r s))) (hv : v = true ↔ P)
    (hcode : code ≠ .ioError) (hexp : expLen (received r s) code = BitVec.ofNat 16 exp) :
    (P → exec i s = .next accepted) ∧ (¬ P → exec i s = .next (rejected code exp r s)) := by
  refine ⟨fun hP => ?_, fun hP => ?_⟩
  · rw [h, if_pos (hv.2 hP)]
  · rw [h, if_neg (mt hv.1 hP), abort_received r hcode hexp]

theorem valHello_iff {r : Bytes} : valHello r = true ↔ r = strHello := beq_iff_eq

/-- Settles O20: the check is equality with `HELLO` and a line feed. -/
theorem handshakeResponse : Obligations.HandshakeResponse := by
  intro s hp hr
  obtain ⟨hfail, hread⟩ := response_reads hp hr rfl
  exact ⟨hfail, hread, fun r hl =>
    checked_response (execRspHELLO_data r s hp hr hl) valHello_iff (by decide) rfl⟩

theorem valInfo_iff {r : Bytes} : valInfo r = true ↔ r ≠ [] := by
  rw [valInfo, decide_eq_true_eq, Nat.one_le_iff_ne_zero, ne_eq, List.length_eq_zero_iff]

/-- Settles O21: the check asks for one byte. -/
theorem infoResponse : Obligations.InfoResponse := by
  intro s hp hr
  obtain ⟨hfail, hread⟩ := response_reads hp hr rfl
  refine ⟨hfail, hread, fun r hl hi => ?_⟩
  obtain ⟨haccept, hreject⟩ :=
    checked_response (exp := 0) (execRspINFO_data r s hp hr hl hi) valInfo_iff (by decide) rfl
  exact ⟨haccept, fun h => hreject (not_not.2 h)⟩

theorem valModel_iff {r : Bytes} {d : Byte} : valModel r d = true ↔ ∃ b, r = [d, b] := by
  unfold valModel
  split
  · next b c => simp
  · next hr => simpa using fun b h => hr d b h

/-- Settles O22: the check asks for the digit of `CFG_MODEL` and one byte, and the erase decision comes after it. -/
theorem modelResponse : Obligations.ModelResponse := by
  intro s hp hr
  obtain ⟨hfail, hread⟩ := response_reads hp hr rfl
  refine ⟨hfail, hread, fun r hl => ?_⟩
  obtain ⟨haccept, hreject⟩ :=
    checked_response (exp := 2) (execRspMODEL_data r s hp hr hl) valModel_iff (by decide) rfl
  refine ⟨fun h herase => ?_, fun h hkeep => ?_, hreject⟩
  · rw [haccept h, if_pos herase]
  · rw [haccept h, if_neg hkeep]

/-- Settles O23: the check is the substring test of `eraseResponseIsASubstringTest`. -/
theorem eraseResponse : Obligations.EraseResponse := by
  intro s hp hr
  obtain ⟨hfail, hread⟩ := response_reads hp hr rfl
  exact ⟨hfail, hread, fun r hl =>
    checked_response (execRspERASED_data r s hp hr hl) (eraseResponseIsASubstringTest r) (by decide) rfl⟩

theorem valWrited_iff {r : Bytes} : valWrited r = true ↔ r = strWrited := beq_iff_eq

/-- Settles O24: the check is equality with `WRITED` and a line feed. -/
theorem writeResponse : Obligations.WriteResponse := by
  intro s hp hr
  obtain ⟨hfail, hread⟩ := response_reads hp hr rfl
  exact ⟨hfail, hread, fun r hl =>
    checked_response (execRspWRITED_data r s hp hr hl) valWrited_iff (by decide) rfl⟩

theorem expectedLen_of_inRange {p : Params} (h : p.inRange = true) (n : Nat) : expectedLen p n = 18 + 3 * n := by
  obtain ⟨hhdr, htrail⟩ := rbLengths_of_inRange h
  rw [expectedLen, hhdr, htrail]
  omega

theorem valRbShape_iff_of_inRange {p : Params} {r : Bytes} {n : Nat} (h : p.inRange = true) :
    valRbShape p r n = true ↔ r.length = 18 + 3 * n := by
  rw [valRbShape, expectedLen_of_inRange h, beq_iff_eq]

theorem rbPayload_of_inRange {p : Params} (h : p.inRange = true) (r : Bytes) :
    rbPayload p r = (r.drop 6).dropLast := by
  obtain ⟨hhdr, htrail⟩ := rbLengths_of_inRange h
  rw [rbPayload, hhdr, htrail, List.dropLast_eq_take, List.length_drop, Nat.sub_right_comm]

theorem valRbVerify_iff_of_inRange {p : Params} {r ref : Bytes} (h : p.inRange = true) :
    valRbVerify p r ref = true ↔ (r.drop 6).dropLast = ref := by
  rw [valRbVerify_iff, rbPayload_of_inRange h]

theorem progressPct_of_ne_zero {addr fsize : Nat} (h : fsize ≠ 0) : progressPct addr fsize = addr * 100 / fsize :=
  if_neg h

/-- Settles O25: shape, then payload, then the advance; with legal parameters the header is 6 bytes and the trailer
one. -/
theorem readbackResponse : Obligations.ReadbackResponse := by
  intro s c hp hr h hc
  obtain ⟨hfail, hread⟩ := response_reads hp hr rfl
  refine ⟨hfail, hread, fun r hl => ?_⟩
  rw [execRspREADBACK_data r c s hp hr hl hc]
  have hexp : BitVec.ofNat 16 (expectedLen s.params s.clen.toNat) = BitVec.ofNat 16 (18 + 3 * s.clen.toNat) := by
    rw [expectedLen_of_inRange h]
  refine ⟨fun hlen => ?_, fun hlen hpay => ?_, fun hlen hpay =>
    ⟨(advance (received r s)).progress, fun hsize => ?_, ?_⟩⟩
  · rw [if_neg (mt (valRbShape_iff_of_inRange h).1 hlen)]
    exact congrArg Host.Outcome.next (abort_received r (by decide) hexp)
  · rw [if_pos ((valRbShape_iff_of_inRange h).2 hlen), if_neg (mt (valRbVerify_iff_of_inRange h).1 hpay)]
    exact congrArg Host.Outcome.next (abort_received r (by decide) hexp)
  · exact congrArg (BitVec.ofNat 7) (progressPct_of_ne_zero hsize)
  · rw [if_pos ((valRbShape_iff_of_inRange h).2 hlen), if_pos ((valRbVerify_iff_of_inRange h).2 hpay)]
    rfl

/-! ## What a response leaves unchanged -/

/-- `t` is `s` but for `RESP` and `INFO` with their lengths, the phase, `ADDR` and `PROGRESS`, the error registers,
and the record. -/
def SameButResponse (s t : State) : Prop :=
  t = { s with
    ph := t.ph, iop := t.iop, addr := t.addr, resp := t.resp, respLen := t.respLen, info := t.info
    infoLen := t.infoLen, err := t.err, ioCause := t.ioCause, progress := t.progress, diagExp := t.diagExp
    diagAct := t.diagAct, trace := t.trace }

/-- The info text is as it was. -/
def SameInfo (s t : State) : Prop := t.info = s.info ∧ t.infoLen = s.infoLen

/-- What only a verified chunk changes is as it was. -/
def SameProgress (s t : State) : Prop := t.addr = s.addr ∧ t.progress = s.progress ∧ t.trace = s.trace

/-- What a response to `r` leaves in the registers that some response writes. -/
structure ResponseWrites (i : Instr) (r : Bytes) (s t : State) : Prop where
  resp : t.resp = memPutBytes s.resp 0 r
  info : SameInfo s t ∨ (i = .rspINFO (.data r) ∧ t.ph ≠ .aborted ∧ t.info = memPutBytes s.info 0 r)
  progress : SameProgress s t ∨ (i = .rspREADBACK (.data r) ∧ t.ph ≠ .aborted)
  record : t.ph ≠ .aborted →
    t.err = s.err ∧ t.ioCause = s.ioCause ∧ t.diagExp = s.diagExp ∧ t.diagAct = s.diagAct

theorem responseEnd_writes {i : Instr} {r : Bytes} {s t : State} (h : ResponseEnd i r s t) :
    SameButResponse s t ∧ ResponseWrites i r s t := by
  have hrec : s.err = s.err ∧ s.ioCause = s.ioCause ∧ s.diagExp = s.diagExp ∧ s.diagAct = s.diagAct :=
    ⟨rfl, rfl, rfl, rfl⟩
  have hinfo : SameInfo s s := ⟨rfl, rfl⟩
  have hprog : SameProgress s s := ⟨rfl, rfl, rfl⟩
  rcases h with ⟨code, -, -, rfl⟩ | ⟨-, -, rfl⟩ | ⟨rfl, -, -, rfl⟩ | ⟨-, rfl⟩ | ⟨-, rfl⟩ | ⟨-, rfl⟩ | ⟨rfl, rfl, -⟩
  · exact ⟨rfl, rfl, .inl hinfo, .inl hprog, fun hp => absurd rfl hp⟩
  · exact ⟨rfl, rfl, .inl hinfo, .inl hprog, fun _ => hrec⟩
  · exact ⟨rfl, rfl, .inr ⟨rfl, nofun, rfl⟩, .inl hprog, fun _ => hrec⟩
  · exact ⟨rfl, rfl, .inl hinfo, .inl hprog, fun _ => hrec⟩
  · exact ⟨rfl, rfl, .inl hinfo, .inl hprog, fun _ => hrec⟩
  · exact ⟨rfl, rfl, .inl hinfo, .inl hprog, fun _ => hrec⟩
  · exact ⟨rfl, rfl, .inl hinfo, .inr ⟨rfl, nofun⟩, fun _ => hrec⟩

theorem ResponseWrites.memGet_resp {i : Instr} {r : Bytes} {s t : State} (h : ResponseWrites i r s t) {a : Nat}
    (ha : r.length ≤ a) : memGet t.resp a = memGet s.resp a := by
  rw [h.resp, memGet_memPutBytes_outside _ _ _ _ (.inr (by omega))]

theorem ResponseWrites.memGet_info {i : Instr} {r : Bytes} {s t : State} (h : ResponseWrites i r s t) {a : Nat}
    (ha : r.length ≤ a) : memGet t.info a = memGet s.info a := by
  rcases h.info with ⟨hsame, -⟩ | ⟨-, -, hput⟩
  · rw [hsame]
  · rw [hput, memGet_memPutBytes_outside _ _ _ _ (.inr (by omega))]

/-- Settles O28: the registers no response writes are read off `SameButResponse`, the others off the seven ends. -/
theorem responsesTouchOnlyTheirBuffer : Obligations.ResponsesTouchOnlyTheirBuffer := by
  intro i r s t hi h
  obtain ⟨-, -, -, hend⟩ := exec_response_next i r s t hi h
  obtain ⟨hsame, hwrites⟩ := responseEnd_writes hend
  have hinfo (hi : i ≠ .rspINFO (.data r) ∨ t.ph = .aborted) : SameInfo s t :=
    hwrites.info.resolve_right fun ⟨he, hp, _⟩ => hi.elim (· he) hp
  have hprog (hi : i ≠ .rspREADBACK (.data r) ∨ t.ph = .aborted) : SameProgress s t :=
    hwrites.progress.resolve_right fun ⟨he, hp⟩ => hi.elim (· he) hp
  refine ⟨fun a => hwrites.memGet_resp, fun a => hwrites.memGet_info, hinfo, ?_, ?_, ?_, ?_, ?_, ?_, ?_, ?_, ?_, ?_, ?_,
    ?_, hprog, hwrites.record, ?_, ?_, ?_, ?_, ?_, ?_, ?_⟩ <;> rw [hsame]

end Sys2Proof.Proofs
end

