-- ==== Sys2Proof/Proofs/SessionSteps.lean ====
section
/-! PROOF. The steps that are no transaction: START by its checks in order (41_session.md R201), FETCH (R210), and a
step where none is enabled (R215 to R217). -/

namespace Sys2Proof.Proofs
open Sys2Proof Sys2Proof.Machine

/-! ## START -/

/-- In `IDLE` the Host's Start is the step. -/
theorem step_start {s : State} {cfg : StartCfg} {ms : List (Option HostMove)}
    (hm : s.hostMoves = some (.start cfg) :: ms) (hp : s.ph = .idle) :
    step s = .next (startSession cfg { s with hostMoves := ms }) := by
  simp only [step, hostTurn, hm, hostEffect, hp, if_pos]

theorem startSession_legacy {s : State} (cfg : StartCfg) (hv : s.params.variant = .legacy) :
    startSession cfg s = refuse .variantLegacy s :=
  if_pos (by rw [hv]; decide)

theorem startSession_illegal {s : State} (cfg : StartCfg) (hv : s.params.variant = .canonical)
    (hr : s.params.inRange = false) : startSession cfg s = refuse .parameterIllegal s := by
  rw [startSession, if_neg (not_not.2 hv), if_pos hr]

/-- The configuration that an accepted Start loads before it asks for the File's size. -/
def configured (cfg : StartCfg) (s : State) : State :=
  setAddr cfg.start
    { s with cfgWrite := cfg.write, cfgErase := cfg.erase, cfgModel := cfg.model, cfgVariant := .canonical }

theorem startSession_legal {s : State} (cfg : StartCfg) (hv : s.params.variant = .canonical)
    (hr : s.params.inRange = true) : startSession cfg s = startPorts (configured cfg s) := by
  rw [startSession, if_neg (not_not.2 hv), if_neg (by rw [hr]; decide), hv, configured]

theorem startPorts_tooLarge {s : State} (h : 2 ^ s.params.fsizeW ≤ s.file.length) :
    startPorts s = refuse .fileTooLarge (record (.fileSize s.file.length) s) :=
  if_pos h

/-- A File whose size fits is measured, and the Link asked for. -/
def portsAsked (s : State) : State :=
  record (.linkIsOpen s.linkOpen) (setFsize s.file.length (record (.fileSize s.file.length) s))

theorem startPorts_linkClosed {s : State} (h : s.file.length < 2 ^ s.params.fsizeW) (hl : s.linkOpen = false) :
    startPorts s = abort .ioError .portNotOpen (portsAsked s) :=
  (if_neg (not_le.2 h)).trans (if_neg (by simp [hl]))

theorem startPorts_linkOpen {s : State} (h : s.file.length < 2 ^ s.params.fsizeW) (hl : s.linkOpen = true) :
    startPorts s = { portsAsked s with iop := .send, ph := .handshake } :=
  (if_neg (not_le.2 h)).trans (if_pos hl)

theorem portsAsked_eq {s : State} (h : s.file.length < 2 ^ s.params.fsizeW) :
    portsAsked s = { s with
      fsize := s.file.length, trace := s.trace ++ [.fileSize s.file.length, .linkIsOpen s.linkOpen] } := by
  simp only [portsAsked, setFsize, record, Nat.mod_eq_of_lt h, List.append_assoc, List.cons_append, List.nil_append]

/-- Settles O13: one equation of START for each outcome of its checks. -/
theorem startFollowsItsChecksInOrder : Obligations.StartFollowsItsChecksInOrder := by
  intro s cfg ms hm hp hs s0 s1 s2
  rw [step_start hm hp]
  refine ⟨fun hv => ?_, fun hv hr => ?_, fun hv hr hsize => ?_, fun hv hr hsize hl => ?_, fun hv hr hsize hl => ?_⟩
  · rw [startSession_legacy (s := s0) cfg hv]; rfl
  · rw [startSession_illegal (s := s0) cfg hv hr]; rfl
  · rw [startSession_legal (s := s0) cfg hv hr, startPorts_tooLarge (s := configured cfg s0) hsize]; rfl
  · rw [startSession_legal (s := s0) cfg hv hr, startPorts_linkClosed (s := configured cfg s0) hsize hl,
      portsAsked_eq (s := configured cfg s0) hsize]
    rfl
  · rw [startSession_legal (s := s0) cfg hv hr, startPorts_linkOpen (s := configured cfg s0) hsize hl,
      portsAsked_eq (s := configured cfg s0) hsize, ← hs]
    rfl

/-! ## FETCH -/

/-- Settles O30: the two ends of FETCH, at the state with the schedule's entry spent; a chunk of 100 bytes at most
has its length in `CLEN`. -/
theorem fetchLoadsAChunkOrEndsTheSession : Obligations.FetchLoadsAChunkOrEndsTheSession := by
  intro s hq hp hs hsize s1 c
  obtain ⟨ms, hturn⟩ := hostTurn_state s
  have hs1 : s1 = { s with hostMoves := ms } := hturn
  rw [step_quiet s hq, hturn, engineStep_fetch (s := { s with hostMoves := ms }) hp hs, hs1]
  have hle : c.length ≤ s.params.chunkSize := List.length_take_le _ _
  have hclen : (BitVec.ofNat 8 c.length).toNat = c.length := by rw [BitVec.toNat_ofNat]; omega
  refine ⟨fun hnil => ?_, fun hne => ⟨_, (fetchChunk_next _ _).2 (.inr ⟨hne, rfl⟩), hclen, ?_, rfl⟩⟩
  · exact (fetchChunk_next _ _).2 (.inl ⟨hnil, rfl⟩)
  · exact (memRead_ok _ _ _ _ _).2 ⟨by rw [Nat.zero_add]; exact hclen.trans_le hle,
      hclen.symm ▸ memGetBytes_memPutBytes [] 0 c⟩

/-! ## No step -/

theorem engineStep_wait {s : State} (hs : s.iop = .send) (hp : s.ph = .idle ∨ isTerminal s.ph = true) :
    engineStep s = .next s := by
  have hsel : select s = .wait := by
    unfold select
    cases h : s.ph <;> simp [h, isTerminal] at hp <;> simp only [hs]
  rw [engineStep, hsel]

/-- Settles O33: step selection answers that no step is enabled. -/
theorem withoutAnEnabledStepNothingChanges : Obligations.WithoutAnEnabledStepNothingChanges := by
  intro s hq hs hp
  obtain ⟨ms, hturn⟩ := hostTurn_state s
  rw [step_quiet s hq, hturn]
  exact engineStep_wait (s := { s with hostMoves := ms }) hs hp

end Sys2Proof.Proofs
end

