-- ==== Sys2Proof/Proofs/PhaseOrder.lean ====
section
/-! PROOF. The linear order of the phases (41_session.md R220), and what is true where a session reaches `DONE`
(R215). -/

namespace Sys2Proof.Proofs
open Sys2Proof Sys2Proof.Machine

theorem aborted_mem_mayFollow {ph : Phase} (h : isTransaction ph = true) : .aborted ∈ mayFollow ph := by
  revert h; cases ph <;> decide

theorem self_mem_mayFollow {ph : Phase} (h : ph ≠ .fetch) : ph ∈ mayFollow ph := by
  revert h; cases ph <;> decide

/-- A response leads where its rule says (41_session.md R203 to R214). -/
theorem responseEnd_ph {i : Instr} {r : Bytes} {s t : State} (h : ResponseEnd i r s t) :
    t.ph ∈ mayFollow (phaseOf i) := by
  rcases h with ⟨code, -, -, rfl⟩ | ⟨rfl, -, rfl⟩ | ⟨rfl, -, -, rfl⟩ | ⟨rfl, rfl⟩ | ⟨rfl, rfl⟩ | ⟨rfl, rfl⟩ |
    ⟨rfl, rfl, -⟩
  · exact aborted_mem_mayFollow (isTransaction_phaseOf i)
  · exact (by decide : Phase.info ∈ mayFollow .handshake)
  · exact (by decide : Phase.model ∈ mayFollow .info)
  · show (if s.cfgModel = .flash ∧ s.cfgErase = true then Phase.erase else .fetch) ∈ mayFollow .model
    split <;> decide
  · exact (by decide : Phase.fetch ∈ mayFollow .erase)
  · exact (by decide : Phase.readback ∈ mayFollow .write)
  · exact (by decide : Phase.fetch ∈ mayFollow .readback)

theorem engineEnd_ph {s t : State} (h : EngineEnd s t) : t.ph ∈ mayFollow s.ph := by
  cases h with
  | wait _ hp e =>
    subst e
    refine self_mem_mayFollow fun hf => ?_
    rw [hf] at hp
    rcases hp with hp | hp <;> cases hp
  | done _ hp _ e => subst e; rw [hp]; exact (by decide : Phase.done ∈ mayFollow .fetch)
  | fetched _ hp _ e =>
    subst e; rw [hp]
    show (if s.cfgWrite then Phase.write else .readback) ∈ mayFollow .fetch
    split <;> decide
  | refused _ hp _ e => subst e; rw [hp]; exact (by decide : Phase.refused ∈ mayFollow .erase)
  | sent i _ _ _ hp _ _ _ _ e =>
    subst e
    have hne : phaseOf i ≠ .fetch := by cases i <;> nofun
    exact self_mem_mayFollow (hp ▸ hne)
  | unsent i _ _ _ hp _ _ _ _ e => subst e; exact aborted_mem_mayFollow (hp ▸ isTransaction_phaseOf i)
  | unread _ _ _ hp e => subst e; exact aborted_mem_mayFollow hp
  | response i _ _ _ _ _ hpi _ _ e => exact hpi ▸ responseEnd_ph e

theorem startSession_ph (cfg : StartCfg) (s : State) :
    (startSession cfg s).ph ∈ [Phase.handshake, .aborted, .refused] := by
  rcases startSession_cases cfg s with
    ⟨-, e⟩ | ⟨-, -, e⟩ | ⟨-, -, s1, -, ⟨-, e⟩ | ⟨-, s2, -, ⟨-, e⟩ | ⟨-, e⟩⟩⟩ <;> simp [e]

theorem ne_fetch_of_not_running {ph : Phase} (h : isRunning ph = false) : ph ≠ .fetch := by
  rintro rfl; cases h

/-- Settles O34, by the ends of a step: a Terminate resets the phase, a Start leaves `IDLE`, the Host's other moves
leave the phase, and an engine step follows the order. -/
theorem phasesFollowTheLinearOrder : Obligations.PhasesFollowTheLinearOrder := by
  intro s t h
  cases step_ends s t h with
  | terminate ms hm e => subst e; exact .inl ⟨hm, rfl⟩
  | start ms cfg hm hp e => subst e; exact .inr (.inl ⟨hp, List.mem_cons_of_mem _ (startSession_ph cfg _)⟩)
  | openFile ms f pos hp e => subst e; exact .inr (.inr (self_mem_mayFollow (ne_fetch_of_not_running hp)))
  | openLink ms ok hp e => subst e; exact .inr (.inr (self_mem_mayFollow (ne_fetch_of_not_running hp)))
  | engine ms hq e => exact .inr (.inr (engineEnd_ph (s := { s with hostMoves := ms }) e))

/-! ## The end of a session -/

/-- In the order only `DONE` and FETCH come before `DONE`. -/
theorem eq_fetch_of_done_mem_mayFollow {ph : Phase} (h : .done ∈ mayFollow ph) (hd : ph ≠ .done) : ph = .fetch := by
  revert h hd; cases ph <;> decide

/-- A Terminate and a Start do not lead to `DONE`. -/
theorem ph_eq_fetch_of_step_done {s t : State} (h : step s = .next t) (hs : s.ph ≠ .done) (ht : t.ph = .done) :
    s.ph = .fetch := by
  rcases phasesFollowTheLinearOrder s t h with ⟨-, hidle⟩ | ⟨-, hstart⟩ | hmay
  · cases hidle.symm.trans ht
  · rw [ht] at hstart
    exact absurd hstart (by decide)
  · exact eq_fetch_of_done_mem_mayFollow (ht ▸ hmay) hs

/-- FETCH leads to `DONE` where its read is empty, and leaves every register but the phase. -/
theorem engineEnd_done {s t : State} (hp : s.ph = .fetch) (h : EngineEnd s t) (ht : t.ph = .done) :
    nextBytes s = [] ∧ t.fsize = s.fsize ∧ t.addr = s.addr ∧ t.err = s.err := by
  cases h with
  | done _ _ hn e => subst e; exact ⟨hn, rfl, rfl, rfl⟩
  | fetched _ _ _ e =>
    subst e
    have hne : (if s.cfgWrite then Phase.write else .readback) ≠ .done := by split <;> decide
    exact absurd ht hne
  | wait _ hw e => subst e; cases hp.symm.trans ht
  | refused _ herase => cases hp.symm.trans herase
  | sent i _ _ _ hi | unsent i _ _ _ hi => cases i <;> cases hp.symm.trans hi
  | unread _ _ _ htrans | response _ _ _ _ _ htrans => rw [hp] at htrans; cases htrans

/-- In FETCH the Host has no move but a Terminate, which does not lead to `DONE`. -/
theorem fetch_done {s t : State} (hp : s.ph = .fetch) (h : step s = .next t) (ht : t.ph = .done) :
    nextBytes s = [] ∧ t.fsize = s.fsize ∧ t.addr = s.addr ∧ t.err = s.err := by
  have hrun : isRunning s.ph = true := by rw [hp]; rfl
  cases step_ends s t h with
  | terminate ms hm e => subst e; cases ht
  | start ms cfg hm hidle e => cases hp.symm.trans hidle
  | openFile ms f pos hstop e | openLink ms ok hstop e => cases hrun.symm.trans hstop
  | engine ms hq e => exact engineEnd_done (s := { s with hostMoves := ms }) hp e ht

/-- An empty read with a chunk size of 1 or more is a cursor at or behind the File's end. -/
theorem length_le_fcur_of_nextBytes_nil {s : State} (hsize : 1 ≤ s.params.chunkSize) (h : nextBytes s = []) :
    s.file.length ≤ s.fcur := by
  have hlen := congrArg List.length h
  rw [nextBytes, List.length_take, List.length_drop, List.length_nil] at hlen
  omega

theorem one_le_chunkSize {p : Params} (h : p.inRange = true) : 1 ≤ p.chunkSize := by
  simp only [Params.inRange, Bool.and_eq_true, decide_eq_true_eq] at h
  omega

/-- Settles O46: FETCH found the File's end at its cursor, which both invariants put at `ADDR`. -/
theorem doneMeansTheFileIsExhausted : Obligations.DoneMeansTheFileIsExhausted := by
  intro s t hinv hfile h hs ht
  have hp := ph_eq_fetch_of_step_done h hs ht
  have hrun : isRunning s.ph = true := by rw [hp]; rfl
  obtain ⟨haccepted, hnoError, -⟩ := inGoodStanding_of_running hinv hrun
  obtain ⟨hnil, hfsize, haddr, herr⟩ := fetch_done hp h ht
  have hend := length_le_fcur_of_nextBytes_nil (one_le_chunkSize haccepted.2.1) hnil
  rw [hfile.before hrun (by rw [hp]; nofun) (by rw [hp]; nofun), ← hfile.size hrun] at hend
  exact ⟨hp, by rwa [hfsize, haddr], herr.trans hnoError⟩

end Sys2Proof.Proofs
end

