-- ==== Sys2Proof/Proofs/PortOperations.lean ====
section
/-! PROOF. The port operations of one step (41_session.md R225, R226, 20_memory.md R78 to R82), and the frames of a
session that has erase or writing disabled (41_session.md R221, R222). -/

namespace Sys2Proof.Proofs
open Sys2Proof Sys2Proof.Machine

/-- The port operations `es` of an engine step, by what `(ph, iop)` selects. -/
inductive StepEvents (s t : State) (es : List PortEvent) : Prop
  | none (ht : isTransaction s.ph = false) (hp : s.ph ≠ .fetch) (e : es = [])
  | fetch (hp : s.ph = .fetch) (c : Bytes) (hc : c.length ≤ s.params.chunkSize) (e : es = [.file s.params.chunkSize c])
  | send (ht : isTransaction s.ph = true) (hs : s.iop = .send)
      (e : (t.ph = .refused ∧ es = []) ∨ (∃ f, es = [.tx f] ∧ t.iop = .recv ∧ t.ph = s.ph) ∨
        (∃ f, es = [.txErr f] ∧ t.ph = .aborted))
  | recv (ht : isTransaction s.ph = true) (hs : s.iop = .recv)
      (e : (∃ r : Bytes, r.length ≤ readLimit s.params s.ph ∧ t.iop = .send ∧
          ((¬(s.ph = .readback ∧ t.ph = .fetch) ∧ es = [.rx (readLimit s.params s.ph) r]) ∨
            (s.ph = .readback ∧ t.ph = .fetch ∧ es = [.rx (readLimit s.params s.ph) r, .progress t.progress]))) ∨
        (es = [.rxErr (readLimit s.params s.ph)] ∧ t.ph = .aborted))

/-- A response reports the progress of a verified read-back, which leads to FETCH, and nothing else. -/
theorem responseEnd_events {i : Instr} {r : Bytes} {s t : State} (h : ResponseEnd i r s t) :
    t.iop = .send ∧
      ((¬ (phaseOf i = .readback ∧ t.ph = .fetch) ∧ t.trace = s.trace) ∨
        (phaseOf i = .readback ∧ t.ph = .fetch ∧ t.trace = s.trace ++ [.progress t.progress])) := by
  rcases h with ⟨code, -, -, rfl⟩ | ⟨rfl, -, rfl⟩ | ⟨rfl, -, -, rfl⟩ | ⟨rfl, rfl⟩ | ⟨rfl, rfl⟩ | ⟨rfl, rfl⟩ |
    ⟨rfl, rfl, -⟩
  · exact ⟨rfl, .inl ⟨nofun, rfl⟩⟩
  · exact ⟨rfl, .inl ⟨nofun, rfl⟩⟩
  · exact ⟨rfl, .inl ⟨nofun, rfl⟩⟩
  · exact ⟨rfl, .inl ⟨nofun, rfl⟩⟩
  · exact ⟨rfl, .inl ⟨nofun, rfl⟩⟩
  · exact ⟨rfl, .inl ⟨nofun, rfl⟩⟩
  · exact ⟨rfl, .inr ⟨rfl, rfl, rfl⟩⟩

theorem not_transaction_of_waiting {ph : Phase} (h : ph = .idle ∨ isTerminal ph = true) :
    isTransaction ph = false ∧ ph ≠ .fetch := by
  revert h; cases ph <;> decide

theorem engineEnd_events {s t : State} (h : EngineEnd s t) :
    ∃ es, t.trace = s.trace ++ es ∧ StepEvents s t es := by
  cases h with
  | wait hi hp e =>
    subst e
    obtain ⟨ht, hf⟩ := not_transaction_of_waiting hp
    exact ⟨[], (List.append_nil _).symm, .none ht hf rfl⟩
  | done hi hp hn e => subst e; exact ⟨_, rfl, .fetch hp [] (Nat.zero_le _) rfl⟩
  | fetched hi hp hn e => subst e; exact ⟨_, rfl, .fetch hp _ (List.length_take_le _ _) rfl⟩
  | refused hi hp hc e =>
    subst e
    exact ⟨[], (List.append_nil _).symm, .send (by rw [hp]; rfl) hi (.inl ⟨rfl, rfl⟩)⟩
  | sent i ws n hi hp hs hr hc hl e =>
    subst e
    exact ⟨_, rfl, .send (hp ▸ isTransaction_phaseOf i) hi (.inr (.inl ⟨_, rfl, rfl, rfl⟩))⟩
  | unsent i ws n hi hp hs hr hc hl e =>
    subst e
    exact ⟨_, rfl, .send (hp ▸ isTransaction_phaseOf i) hi (.inr (.inr ⟨_, rfl, rfl⟩))⟩
  | unread rs n hi hp e => subst e; exact ⟨_, rfl, .recv hp hi (.inr ⟨rfl, rfl⟩)⟩
  | response i r rs n hi hp hpi hm hl e =>
    obtain ⟨hsend, ⟨hnot, htrace⟩ | ⟨hrb, hfetch, htrace⟩⟩ := responseEnd_events e
    · exact ⟨_, htrace, .recv hp hi (.inl ⟨r, hm, hsend, .inl ⟨hpi ▸ hnot, rfl⟩⟩)⟩
    · exact ⟨_, htrace.trans (List.append_assoc _ _ _),
        .recv hp hi (.inl ⟨r, hm, hsend, .inr ⟨hpi ▸ hrb, hfetch, rfl⟩⟩)⟩

theorem newEvents_of_trace {s t : State} {es : List PortEvent} (h : t.trace = s.trace ++ es) : newEvents s t = es := by
  rw [newEvents, h, List.drop_left]

/-- With the Host silent a step is the engine's. -/
theorem quiet_step_ends {s t : State} (hq : hostQuiet s) (h : step s = .next t) :
    ∃ ms, EngineEnd { s with hostMoves := ms } t := by
  obtain ⟨ms, hturn⟩ := hostTurn_state s
  rw [step_quiet s hq, hturn] at h
  exact ⟨ms, engineStep_ends _ t h⟩

/-- Settles O35: each clause speaks of one of the four kinds of step, and the other kinds are in another phase or
sub-phase. -/
theorem portOperationsOfAStep : Obligations.PortOperationsOfAStep := by
  intro s t hq h
  obtain ⟨ms, hend⟩ := quiet_step_ends hq h
  obtain ⟨es, htrace, hes⟩ := engineEnd_events hend
  have hnew : newEvents s t = es := newEvents_of_trace htrace
  have hfetch {ph : Phase} (hp : ph = .fetch) : isTransaction ph = false := by rw [hp]; rfl
  rw [hnew]
  refine ⟨htrace, ?_⟩
  cases hes with
  | none ht hp e =>
    exact ⟨fun _ _ => e, fun hp' => absurd hp' hp, fun ht' => (nomatch ht.symm.trans ht'),
      fun ht' => (nomatch ht.symm.trans ht')⟩
  | fetch hp c hc e =>
    exact ⟨fun _ hp' => absurd hp hp', fun _ => ⟨c, hc, e⟩, fun ht' => (nomatch (hfetch hp).symm.trans ht'),
      fun ht' => (nomatch (hfetch hp).symm.trans ht')⟩
  | send ht hs e =>
    exact ⟨fun ht' => (nomatch ht.symm.trans ht'), fun hp => (nomatch ht.symm.trans (hfetch hp)), fun _ _ => e,
      fun _ hr => (nomatch hs.symm.trans hr)⟩
  | recv ht hs e =>
    exact ⟨fun ht' => (nomatch ht.symm.trans ht'), fun hp => (nomatch ht.symm.trans (hfetch hp)),
      fun _ hr => (nomatch hs.symm.trans hr), fun _ _ => e⟩

/-! ## Frames that are not sent -/

/-- The first byte of the tag of a phase's request (30_encoding.md R101 to R106); a phase with none has the byte
that ends a frame. -/
def tagByte : Phase → Byte
  | .handshake => chH
  | .info => chI
  | .model => chM
  | .erase => chF
  | .write => chW
  | .readback => chR
  | _ => chHash

theorem take_two_encode {i : Instr} (hi : iopOf i = .send) : (encode i).take 2 = [chDollar, tagByte (phaseOf i)] := by
  cases i with
  | reqH | reqI | reqM | reqFES | reqW | reqR => rfl
  | _ => cases hi

theorem tagByte_eq_chF_iff {ph : Phase} : tagByte ph = chF ↔ ph = .erase := by cases ph <;> decide

theorem tagByte_eq_chW_iff {ph : Phase} : tagByte ph = chW ↔ ph = .write := by cases ph <;> decide

/-- Settles O37: the tag tells the phase, and the invariant keeps that phase for an enabled session. -/
theorem noEraseOrWriteFrameWhenDisabled : Obligations.NoEraseOrWriteFrameWhenDisabled := by
  intro s t f hinv h hf
  obtain ⟨i, hi, hp, -, -, rfl⟩ := step_emits h (mem_emittedFrames_iff.2 hf)
  rw [take_two_encode hi, ← hp, List.cons.injEq, List.cons.injEq, List.cons.injEq, List.cons.injEq]
  exact ⟨fun ⟨_, htag, _⟩ => hinv.eraseGate (tagByte_eq_chF_iff.1 htag),
    fun ⟨_, htag, _⟩ => hinv.writeGate (tagByte_eq_chW_iff.1 htag)⟩

end Sys2Proof.Proofs
end

