-- ==== Sys2Proof/Proofs/VerifiedChunk.lean ====
section
/-! PROOF. A verified chunk advances `ADDR` without a wrap and reports the percentage (41_session.md R224, R226). -/

namespace Sys2Proof.Proofs
open Sys2Proof Sys2Proof.Machine

/-- The loaded chunk lies inside the File, whose length is `FSIZE` and fits the width of `ADDR`. -/
theorem chunk_inside_file {s : State} (hinv : Inv s) (hfile : FileInv s) (hp : s.ph = .readback) :
    s.fcur = s.addr + s.clen.toNat ∧ 1 ≤ s.clen.toNat ∧ s.addr + s.clen.toNat ≤ s.fsize ∧
      s.fsize = s.file.length ∧ s.fsize < 2 ^ s.params.addrW := by
  have hrun : isRunning s.ph = true := by rw [hp]; rfl
  obtain ⟨hcur, hin⟩ := hfile.after (.inr hp)
  have hsize := hfile.size hrun
  have hwidths := hinv.widths.2
  rw [fsizeW_eq_addrW (inGoodStanding_of_running hinv hrun).accepted.2.1] at hwidths
  exact ⟨hcur, (hinv.loaded (.inr hp)).1, by omega, hsize, hwidths⟩

theorem advance_addr_of_lt {s : State} (h : s.addr + s.clen.toNat < 2 ^ s.params.addrW) :
    (advance s).addr = s.addr + s.clen.toNat := Nat.mod_eq_of_lt h

/-- Up to the File's end the percentage fits `PROGRESS`. -/
theorem advance_progress_of_le {s : State} (h : (advance s).addr ≤ s.fsize) (hpos : s.fsize ≠ 0) :
    (advance s).progress.toNat = (advance s).addr * 100 / s.fsize := by
  have hpct : (advance s).addr * 100 / s.fsize ≤ 100 := Nat.div_le_of_le_mul (Nat.mul_le_mul_right 100 h)
  have hprog : (advance s).progress = BitVec.ofNat 7 ((advance s).addr * 100 / s.fsize) :=
    congrArg (BitVec.ofNat 7) (progressPct_of_ne_zero hpos)
  rw [hprog, BitVec.toNat_ofNat, Nat.mod_eq_of_lt (by omega)]

/-- In READBACK only a verified chunk leads to FETCH. -/
theorem readback_to_fetch {s t : State} (h : EngineEnd s t) (hp : s.ph = .readback) (ht : t.ph = .fetch) :
    ∃ r rs n e, t = advance (received r (drawn rs n e s)) := by
  cases h with
  | response i r rs n hi htr hpi hm hl e =>
    rcases e with ⟨code, -, -, rfl⟩ | ⟨rfl, -, -⟩ | ⟨rfl, -, -, -⟩ | ⟨rfl, -⟩ | ⟨rfl, -⟩ | ⟨rfl, -⟩ | ⟨rfl, rfl, -⟩
    · cases ht
    · cases hpi.trans hp
    · cases hpi.trans hp
    · cases hpi.trans hp
    · cases hpi.trans hp
    · cases hpi.trans hp
    · exact ⟨r, rs, n, _, rfl⟩
  | wait _ _ e | sent _ _ _ _ _ _ _ _ _ e => subst e; cases hp.symm.trans ht
  | unsent _ _ _ _ _ _ _ _ _ e | unread _ _ _ _ e => subst e; cases ht
  | done _ hf | fetched _ hf | refused _ hf => cases hp.symm.trans hf

/-- Settles O45: both invariants put the chunk inside the File, and the advance moves `ADDR` behind it. -/
theorem verifiedChunksAdvanceAndReport : Obligations.VerifiedChunksAdvanceAndReport := by
  intro s t hinv hfile hq hp h ht
  obtain ⟨hcur, hone, hin, hsize, hwidth⟩ := chunk_inside_file hinv hfile hp
  obtain ⟨ms, hend⟩ := quiet_step_ends hq h
  obtain ⟨r, rs, n, e, rfl⟩ := readback_to_fetch hend hp ht
  have haddr := advance_addr_of_lt (s := received r (drawn rs n e { s with hostMoves := ms })) (hin.trans_lt hwidth)
  have hne : s.fsize ≠ 0 := by omega
  have hprog := advance_progress_of_le (s := received r (drawn rs n e { s with hostMoves := ms }))
    (haddr.trans_le hin) hne
  refine ⟨haddr, hprog, fun hall => BitVec.eq_of_toNat_eq (hprog.trans ?_)⟩
  have hlast : s.addr + s.clen.toNat = s.fsize := hcur.symm.trans (hall.trans hsize.symm)
  rw [haddr]
  show (s.addr + s.clen.toNat) * 100 / s.fsize = 100
  rw [hlast, Nat.mul_div_cancel_left 100 (Nat.pos_of_ne_zero hne)]

end Sys2Proof.Proofs
end

