-- ==== Sys2Proof/Proofs/StepSelection.lean ====
section
/-! PROOF. The instruction a step runs is the one its bytes decode to (41_session.md R200, 30_encoding.md R109), and
a placed word is the very next step's instruction (the model's choice, log 10). -/

namespace Sys2Proof.Proofs
open Sys2Proof Sys2Proof.Machine

/-! ## The bytes of a request tell the request -/

theorem encodeByte_injective : Function.Injective encodeByte := fun v v' h => by
  have hval := (decodeFixed_encodeByte v).symm.trans (h ▸ decodeFixed_encodeByte v')
  exact BitVec.eq_of_toNat_eq (Option.some.inj hval)

theorem eq_of_encodeFixed8Digit_eq {v v' : Nat} (hv : v < 10 ^ 8) (hv' : v' < 10 ^ 8)
    (h : encodeFixed8Digit v = encodeFixed8Digit v') : v = v' :=
  Option.some.inj ((decodeFixed_encodeFixed8Digit hv).symm.trans (h ▸ decodeFixed_encodeFixed8Digit hv'))

theorem encodeData_injective : Function.Injective encodeData := fun data data' h =>
  Except.ok.inj ((decodeData_encodeData data).symm.trans (h ▸ decodeData_encodeData data'))

theorem modelDigit_injective : Function.Injective modelDigit := by
  intro m m' h
  revert h
  cases m <;> cases m' <;> decide

/-- No operand of a request loses digits on the wire. -/
def FieldsHold : Instr → Prop
  | .reqFES _ count => count ≤ 255
  | .reqW _ addr _ => addr < 10 ^ 8
  | .reqR addr _ => addr < 10 ^ 8
  | _ => True

theorem fieldsHold_of_wellFormed {p : Params} {i : Instr} (h : i.wellFormed p = true) : FieldsHold i := by
  cases i with
  | reqFES start count => exact (wellFormed_reqFES_iff.1 h).2
  | reqW cks addr data => exact (wellFormed_reqW_iff.1 h).1
  | reqR addr len => exact (wellFormed_reqR_iff.1 h).1
  | _ => trivial

theorem fieldsHold_of_engineRequest {s : State} {i : Instr} (he : EngineRequest s i)
    (hcount : ∀ start count, i = .reqFES start count → count ≤ 255) : FieldsHold i := by
  rcases he with rfl | rfl | rfl | rfl | ⟨c, -, rfl⟩ | rfl
  · trivial
  · trivial
  · trivial
  · exact hcount _ _ rfl
  · exact wireAddr_lt _
  · exact wireAddr_lt _

theorem fieldsOf_eq_of_encode_eq {i j : Instr} (hi : iopOf i = .send) (hj : iopOf j = .send)
    (htag : tagOf i = tagOf j) (h : encode i = encode j) : fieldsOf i = fieldsOf j := by
  rw [encode_request hi, encode_request hj, htag] at h
  exact List.append_cancel_left (List.append_cancel_right h)

/-- Two requests of one phase with the same bytes are the same. -/
theorem request_eq_of_encode_eq {i j : Instr} (hi : iopOf i = .send) (hj : iopOf j = .send)
    (hp : phaseOf i = phaseOf j) (hfi : FieldsHold i) (hfj : FieldsHold j) (h : encode i = encode j) : i = j := by
  have hfields := fieldsOf_eq_of_encode_eq hi hj
  cases i with
  | reqH => cases j <;> cases hp <;> [rfl; cases hj]
  | reqI => cases j <;> cases hp <;> [rfl; cases hj]
  | reqM m =>
    cases j <;> cases hp <;> [skip; cases hj]
    next m' => rw [modelDigit_injective (List.cons.inj (hfields rfl h)).1]
  | reqFES start count =>
    cases j <;> cases hp <;> [skip; cases hj]
    next start' count' =>
    obtain ⟨hstart, hcount⟩ := List.append_inj (hfields rfl h) rfl
    have hval := congrArg BitVec.toNat (encodeByte_injective hcount)
    have hle : count ≤ 255 := hfi
    have hle' : count' ≤ 255 := hfj
    rw [BitVec.toNat_ofNat, BitVec.toNat_ofNat, Nat.mod_eq_of_lt (by omega), Nat.mod_eq_of_lt (by omega)] at hval
    rw [encodeByte_injective hstart, hval]
  | reqW cks addr data =>
    cases j <;> cases hp <;> [skip; cases hj]
    next cks' addr' data' =>
    obtain ⟨hhead, hdata⟩ := List.append_inj (hfields rfl h) rfl
    obtain ⟨hcks, haddr⟩ := List.append_inj hhead rfl
    rw [encodeByte_injective hcks, eq_of_encodeFixed8Digit_eq hfi hfj haddr, encodeData_injective hdata]
  | reqR addr len =>
    cases j <;> cases hp <;> [skip; cases hj]
    next addr' len' =>
    obtain ⟨haddr, hlen⟩ := List.append_inj (hfields rfl h) rfl
    rw [eq_of_encodeFixed8Digit_eq hfi hfj haddr, encodeByte_injective hlen]
  | _ => cases hi

/-! ## The bytes of a transaction and their reading in its phase -/

theorem encode_of_decodeAt_send {p : Params} {ph : Phase} {bs : Bytes} {i : Instr}
    (h : decodeAt p ph .send bs = .ok i) :
    i.wellFormed p = true ∧ iopOf i = .send ∧ phaseOf i = ph ∧ encode i = bs := by
  rw [decodeAt] at h
  split at h
  · next hread =>
    split_ifs at h with hp
    cases h
    obtain ⟨hwf, hi, hbs⟩ := encode_of_decodeRequest hread
    exact ⟨hwf, hi, hp, by rwa [List.append_nil] at hbs⟩
  · cases h
  · cases h

theorem decodeAt_recv {p : Params} {ph : Phase} {mk : ReadResult → Instr} (hm : responseOf ph = some mk) (bs : Bytes) :
    decodeAt p ph .recv bs = .ok (mk (.data bs)) := by
  cases ph <;> cases hm <;> rfl

/-- The bytes of a Tx step are its frame, where it has one (41_session.md R208). -/
theorem wireBytes_request {s s1 : State} {i : Instr} {bs : Bytes} (hsel : select s = .run i s1) (hi : iopOf i = .send)
    (h : wireBytes s = some bs) : (∀ start count, i = .reqFES start count → count ≤ 255) ∧ encode i = bs := by
  unfold wireBytes at h
  rw [hsel] at h
  cases i with
  | reqFES start count =>
    dsimp only at h
    split_ifs at h with hc
    cases h
    exact ⟨by rintro _ _ ⟨⟩; omega, rfl⟩
  | reqH | reqI | reqM | reqW | reqR => cases h; exact ⟨nofun, rfl⟩
  | _ => cases hi

/-- The bytes of an Rx step are the string its read returned. -/
theorem wireBytes_response {s s1 : State} {mk : ReadResult → Instr} {res : ReadResult} {bs : Bytes} {ph : Phase}
    (hsel : select s = .run (mk res) s1) (hm : responseOf ph = some mk) (h : wireBytes s = some bs) :
    res = .data bs := by
  unfold wireBytes at h
  rw [hsel] at h
  cases ph <;> cases hm <;> cases res <;> cases h <;> rfl

theorem select_of_wireBytes {s : State} {bs : Bytes} (h : wireBytes s = some bs) : ∃ i s1, select s = .run i s1 := by
  cases hsel : select s with
  | run i s1 => exact ⟨i, s1, rfl⟩
  | wait | fileRead | stop f => simp [wireBytes, hsel] at h

/-- A request that stands on the wire is the one the engine's registers give, and a response is the string read. -/
theorem engineStep_decoded {s : State} {i : Instr} {bs : Bytes} (hw : wireBytes s = some bs)
    (hd : decodeAt s.params s.ph s.iop bs = .ok i) :
    (s.iop = .send → engineStep s = exec i s) ∧
      (s.iop = .recv → engineStep s = exec i (linkRead (readLimit s.params s.ph) s).2) := by
  obtain ⟨j, s1, hsel⟩ := select_of_wireBytes hw
  have hselected := select_selected s
  rw [hsel] at hselected
  cases hselected with
  | request _ hsend hp hj he =>
    refine ⟨fun _ => ?_, fun hr => (nomatch hsend.symm.trans hr)⟩
    obtain ⟨hcount, hbs⟩ := wireBytes_request hsel hj hw
    rw [hsend] at hd
    obtain ⟨hwf, hi, hpi, hbs'⟩ := encode_of_decodeAt_send hd
    have hij : i = j := request_eq_of_encode_eq hi hj (hpi.trans hp) (fieldsHold_of_wellFormed hwf)
      (fieldsHold_of_engineRequest he hcount) (hbs'.trans hbs.symm)
    rw [hij]
    exact engineStep_run s s j hsel
  | response mk res _ hr hm hl =>
    refine ⟨fun hs => (nomatch hr.symm.trans hs), fun _ => ?_⟩
    obtain rfl := wireBytes_response hsel hm hw
    rw [hr, decodeAt_recv hm] at hd
    cases hd
    rw [hl]
    exact engineStep_run s s1 _ hsel

/-- Settles O31: spending the schedule's entry changes nothing the step selection or the decoder reads. -/
theorem stepRunsTheDecodedInstruction : Obligations.StepRunsTheDecodedInstruction := by
  intro s i bs hq hw hd
  obtain ⟨ms, hturn⟩ := hostTurn_state s
  rw [hturn] at hw
  rw [step_quiet s hq, hturn]
  exact engineStep_decoded hw hd

/-! ## Placed words -/

theorem wellFormed_of_decodeTableWord {nbits w : Nat} {i : Instr} (h : decodeTableWord nbits w = some i) :
    i.wellFormed Params.source = true := by
  unfold decodeTableWord at h
  split at h
  · split at h
    · next hread =>
      split_ifs at h
      cases h
      exact (encode_of_decodeRequest hread).1
    · cases h
  · split at h
    · next hread =>
      cases h
      exact (encode_of_decodeResponse hread).1
    · cases h

theorem withFetchWord_of_decode {s : State} {nbits w : Nat} {i : Instr} (h : decodeTableWord nbits w = some i) :
    s.withFetchWord nbits w = place i s := by
  rw [State.withFetchWord, placeWord, h]

theorem place_phase (i : Instr) (s : State) : (place i s).ph = phaseOf i ∧ (place i s).iop = iopOf i := by
  cases i <;> exact ⟨rfl, rfl⟩

theorem hostTurn_place (i : Instr) (s : State) :
    hostTurn (place i s) = (none, { place i s with hostMoves := s.hostMoves }) := by
  cases i <;> rfl

theorem hostQuiet_place (i : Instr) (s : State) : hostQuiet (place i s) := by
  rw [hostQuiet, hostTurn_place]
  trivial

theorem step_place (i : Instr) (s : State) : step (place i s) = engineStep (hostTurn (place i s)).2 :=
  step_quiet _ (hostQuiet_place i s)

/-- A chunk written from 0 with its length in `CLEN` is the current chunk. -/
theorem currentChunk_of_written {s : State} {c : Bytes} (hfits : c.length ≤ s.params.chunkSize)
    (hlen : s.clen.toNat = c.length) (hchunk : s.chunk = memPutBytes [] 0 c) : currentChunk s = .ok c := by
  rw [currentChunk, hlen, memRead_ok, bufOf_chunk, hchunk, Nat.zero_add]
  exact ⟨hfits, memGetBytes_memPutBytes [] 0 c⟩

/-- A placed request is the one its phase selects. -/
theorem select_place_request {s : State} {i : Instr} (hr : s.params.inRange = true) (hi : iopOf i = .send)
    (hwf : i.wellFormed s.params = true) : select (hostTurn (place i s)).2 = .run i (hostTurn (place i s)).2 := by
  rw [hostTurn_place]
  cases i with
  | reqH | reqI | reqM => rfl
  | reqFES start count =>
    obtain ⟨⟨rfl, hone⟩, -⟩ := wellFormed_reqFES_iff.1 hwf
    have hcount : (count - 1) * s.params.sectorSize / 4096 + 1 = count := by
      rw [sectorSize_of_inRange hr, Nat.mul_div_cancel _ (by decide), Nat.sub_add_cancel hone]
    have hsel := select_erase (s := { place (.reqFES 0 count) s with hostMoves := s.hostMoves }) rfl rfl hr
    rwa [show (place (.reqFES 0 count) s).fsize / 4096 + 1 = count from hcount] at hsel
  | reqW cks addr data =>
    obtain ⟨haddr, -, hfits⟩ := wellFormed_reqW_iff.1 hwf
    have hsel := select_write (s := { place (.reqW cks addr data) s with hostMoves := s.hostMoves }) rfl rfl
      (currentChunk_of_written hfits (toNat_ofNat_length hr hfits) rfl)
    rwa [show wireAddr (place (.reqW cks addr data) s).addr = addr from Nat.mod_eq_of_lt haddr] at hsel
  | reqR addr len =>
    obtain ⟨haddr, -, -⟩ := wellFormed_reqR_iff.1 hwf
    have hwire : wireAddr addr = addr := Nat.mod_eq_of_lt haddr
    exact congrArg (fun a => Selection.run (.reqR a len) _) hwire
  | _ => cases hi

/-- A placed response is what the phase makes of the Link's next answer, which its read limit does not cut. -/
theorem place_response {p : Params} {i : Instr} (hr : p.inRange = true) (hi : iopOf i = .recv)
    (hwf : i.wellFormed p = true) :
    ∃ mk r, responseOf (phaseOf i) = some mk ∧ i = mk (.data r) ∧ r.length ≤ readLimit p (phaseOf i) ∧
      ∀ s, place i s = atRecv (phaseOf i) (.data r) s := by
  obtain ⟨hH, hM, hW, hR⟩ := Laws.inRange_bounds p hr
  cases i with
  | rspHELLO res =>
    cases res <;> [skip; cases hwf]
    next r =>
    obtain rfl := valHello_iff.1 hwf
    exact ⟨_, _, rfl, rfl, hH, fun _ => rfl⟩
  | rspINFO res =>
    cases res <;> [skip; cases hwf]
    next r =>
    rw [Instr.wellFormed, Bool.and_eq_true, decide_eq_true_eq] at hwf
    exact ⟨_, _, rfl, rfl, hwf.2, fun _ => rfl⟩
  | rspMODEL res =>
    cases res <;> [skip; cases hwf]
    next r =>
    rw [Instr.wellFormed, Bool.or_eq_true, valModel_iff, valModel_iff] at hwf
    rcases hwf with ⟨b, rfl⟩ | ⟨b, rfl⟩ <;> exact ⟨_, _, rfl, rfl, hM, fun _ => rfl⟩
  | rspERASED res =>
    cases res <;> [skip; cases hwf]
    next r =>
    rw [Instr.wellFormed, Bool.and_eq_true, decide_eq_true_eq] at hwf
    exact ⟨_, _, rfl, rfl, hwf.2, fun _ => rfl⟩
  | rspWRITED res =>
    cases res <;> [skip; cases hwf]
    next r =>
    obtain rfl := valWrited_iff.1 hwf
    exact ⟨_, _, rfl, rfl, hW, fun _ => rfl⟩
  | rspREADBACK res =>
    cases res <;> [skip; cases hwf]
    next r =>
    have hlen : r.length ≤ p.maxRespR := by
      simp only [Instr.wellFormed, isReadback, Bool.and_eq_true, decide_eq_true_eq, beq_iff_eq] at hwf
      omega
    exact ⟨_, _, rfl, rfl, hlen, fun _ => rfl⟩
  | _ => cases hi

theorem linkRead_of_short {s : State} {r : Bytes} {rs : List ReadResult} {m : Nat}
    (h : s.linkReads = .data r :: rs) (hm : r.length ≤ m) : (linkRead m s).1 = .data r := by
  rw [linkRead, drawRead_data s _ rs h]
  exact congrArg ReadResult.data (List.take_of_length_le hm)

/-- Settles O32: a request is what the placed registers give, a response what the placed answer of the Link is. -/
theorem placedWordsAreTheNextInstruction : Obligations.PlacedWordsAreTheNextInstruction := by
  intro s nbits w i hsource h u
  have hu : u = place i s := withFetchWord_of_decode h
  have hwf := wellFormed_of_decodeTableWord h
  have hr : Params.source.inRange = true := by decide
  rw [← hsource] at hwf hr
  obtain ⟨hph, hiop⟩ := place_phase i s
  rw [hu]
  refine ⟨hph, hiop, fun hi => ?_, fun hi => ?_⟩
  · exact (step_place i s).trans (engineStep_run _ _ i (select_place_request hr hi hwf))
  · obtain ⟨mk, r, hm, he, hlen, hplace⟩ := place_response hr hi hwf
    have hread : (linkRead (readLimit s.params (phaseOf i)) (hostTurn (place i s)).2).1 = .data r := by
      rw [hplace]
      exact linkRead_of_short rfl hlen
    have hstep := stepReads (s := place i s) (hiop.trans hi) (by rw [hph]; exact hm) (hostQuiet_place i s)
    have hparams : (place i s).params = s.params := by rw [hplace]; rfl
    rwa [hparams, hph, hread, ← he] at hstep

end Sys2Proof.Proofs
end

