-- ==== Sys2Proof/Proofs/AbortEntry.lean ====
section
/-! PROOF. Abort entry and the record it leaves (60_exceptions.md R261, R270). -/

namespace Sys2Proof.Proofs
open Sys2Proof Sys2Proof.Machine

/-- Abort entry writes its six registers, with the expected length of the table, and nothing else. -/
theorem abort_eq_abortedWith (code : ErrCode) (cause : IoCause) (s : State) :
    abort code cause s =
      abortedWith code cause (expLen s code) (if code = .ioError then 0 else BitVec.ofNat 16 s.respLen) s := rfl

/-- Both read-back codes expect the length of the read-back response (40_codec.md R157). -/
theorem expLen_readback_of_inRange {s : State} {code : ErrCode}
    (hcode : code = .readbackShapeMismatch ∨ code = .verifyMismatch) (h : s.params.inRange = true) :
    expLen s code = BitVec.ofNat 16 (18 + 3 * s.clen.toNat) := by
  rw [← expectedLen_of_inRange h]
  rcases hcode with rfl | rfl <;> rfl

/-- Settles O26: the expected length is the table's, code by code. -/
theorem abortEntryRecordsTheCause : Obligations.AbortEntryRecordsTheCause := by
  intro code cause s
  refine ⟨expLen s code, abort_eq_abortedWith code cause s, ?_, ?_, ?_, ?_, ?_, ?_,
    expLen_readback_of_inRange⟩ <;> (rintro rfl; rfl)

end Sys2Proof.Proofs
end

