-- ==== Sys2Proof/Proofs/HeldPorts.lean ====
section
/-! PROOF. The Link and the File are the session's while it runs and the Host's in every other phase
(60_exceptions.md R283). -/

namespace Sys2Proof.Proofs
open Sys2Proof Sys2Proof.Machine

/-! ## The steps of a session -/

theorem responseEnd_linkOpen {i : Instr} {r : Bytes} {s t : State} (h : ResponseEnd i r s t) :
    t.linkOpen = s.linkOpen := by
  obtain ⟨hsame, -⟩ := responseEnd_writes h
  rw [hsame]

/-- No engine step opens or closes the Link. -/
theorem engineEnd_linkOpen {s t : State} (h : EngineEnd s t) : t.linkOpen = s.linkOpen := by
  cases h with
  | response i r rs n _ _ _ _ _ e => exact (responseEnd_linkOpen e :)
  | wait _ _ e | done _ _ _ e | fetched _ _ _ e | refused _ _ _ e | sent _ _ _ _ _ _ _ _ _ e
  | unsent _ _ _ _ _ _ _ _ _ e | unread _ _ _ _ e => subst e; rfl

/-- In a session the Host's only move is a Terminate, and neither it nor an engine step touches what is open. -/
theorem ports_held_of_running {s t : State} (hrun : isRunning s.ph = true) (h : step s = .next t) :
    t.file = s.file ∧ t.linkOpen = s.linkOpen := by
  cases step_ends s t h with
  | terminate ms hm e => subst e; exact ⟨rfl, rfl⟩
  | start ms cfg hm hp e => rw [hp] at hrun; cases hrun
  | openFile ms f pos hp e | openLink ms ok hp e => cases hrun.symm.trans hp
  | engine ms hq e => exact ⟨(engineEnd_frame e).2, (engineEnd_linkOpen e :)⟩

/-! ## The Host's moves -/

/-- A move the Host has is the step. -/
theorem step_of_hostEffect {s t : State} {m : HostMove} {ms : List (Option HostMove)}
    (hm : s.hostMoves = some m :: ms) (he : hostEffect m { s with hostMoves := ms } = some t) : step s = .next t := by
  simp only [step, hostTurn, hm, he]

/-- A move the Host does not have is spent, and the engine steps. -/
theorem step_of_no_hostEffect {s : State} {m : HostMove} {ms : List (Option HostMove)}
    (hm : s.hostMoves = some m :: ms) (he : hostEffect m { s with hostMoves := ms } = none) :
    step s = engineStep { s with hostMoves := ms } := by
  simp only [step, hostTurn, hm, he]

theorem hostEffect_openFile (s : State) (f : Bytes) (pos : Nat) :
    hostEffect (.openFile f pos) s =
      if isRunning s.ph = false then some { s with file := f, fcur := pos } else none := rfl

theorem hostEffect_openLink (s : State) (ok : Bool) :
    hostEffect (.openLink ok) s = if isRunning s.ph = false then some { s with linkOpen := ok } else none := rfl

theorem not_running_of_idle_or_terminal {ph : Phase} (h : ph = .idle ∨ isTerminal ph = true) :
    isRunning ph = false := by
  revert h; cases ph <;> decide

/-- A move that the Host has exactly outside a session, with the effect `t`: in a session the engine steps, in `IDLE`
and the terminal phases the effect is the step. -/
theorem step_of_move_outside_session {s t : State} {m : HostMove} {ms : List (Option HostMove)}
    (hm : s.hostMoves = some m :: ms)
    (he : hostEffect m { s with hostMoves := ms } = if isRunning s.ph = false then some t else none) :
    (isRunning s.ph = true → step s = engineStep { s with hostMoves := ms }) ∧
      (s.ph = .idle ∨ isTerminal s.ph = true → step s = .next t) := by
  refine ⟨fun hrun => step_of_no_hostEffect hm ?_, fun hstop => step_of_hostEffect hm ?_⟩
  · rw [he, if_neg (by rw [hrun]; decide)]
  · rw [he, if_pos (not_running_of_idle_or_terminal hstop)]

/-- Settles O49: a step of a session keeps the ports, and opening the File or the Link is a move the Host has exactly
outside a session. -/
theorem portsAreHeldExactlyDuringASession : Obligations.PortsAreHeldExactlyDuringASession :=
  ⟨fun _ _ => ports_held_of_running, fun _ _ =>
    ⟨fun f pos hm => step_of_move_outside_session hm (hostEffect_openFile _ f pos),
      fun ok hm => step_of_move_outside_session hm (hostEffect_openLink _ ok)⟩⟩

end Sys2Proof.Proofs
end

