-- ==== Sys2Proof/Proofs/ResetValues.lean ====
section
/-! PROOF. The values right after reset and after a Terminate (70_reset_and_hazards.md R300, 60_exceptions.md R266). -/

namespace Sys2Proof.Proofs
open Sys2Proof Sys2Proof.Machine

theorem holdsResetValues_blockReset (s : State) : HoldsResetValues (blockReset s) :=
  ⟨rfl, rfl, rfl, rfl, rfl, rfl, rfl, rfl, rfl, rfl, rfl, fun b _ => by cases b <;> rfl⟩

/-- Reset leaves the reset state as it is. -/
theorem blockReset_reset : blockReset State.reset = State.reset := rfl

theorem exists_hostMoves_of_hostTurn {s : State} {m : HostMove} (h : (hostTurn s).1 = some m) :
    ∃ ms, s.hostMoves = some m :: ms := by
  rcases hostTurn_cases s with ⟨-, e⟩ | ⟨m', ms, hm, e⟩ <;> rw [e] at h
  · cases h
  · exact ⟨ms, hm.trans (congrArg (· :: ms) h)⟩

/-- A `Terminate` is a move in every phase: it resets the block. -/
theorem step_terminate {s : State} {ms : List (Option HostMove)} (h : s.hostMoves = some .terminate :: ms) :
    step s = .next (blockReset { s with hostMoves := ms }) :=
  step_of_hostEffect h rfl

/-- Settles O12: the reset state is itself the reset of a block, and so is what a Terminate leaves, which keeps the
record. -/
theorem resetAndTerminateGiveTheResetValues : Obligations.ResetAndTerminateGiveTheResetValues := by
  refine ⟨blockReset_reset ▸ holdsResetValues_blockReset State.reset, fun s h => ?_⟩
  obtain ⟨ms, hms⟩ := exists_hostMoves_of_hostTurn h
  exact ⟨_, step_terminate hms, holdsResetValues_blockReset _, rfl⟩

end Sys2Proof.Proofs
end

