-- ==== Sys2Proof/Proofs/Runs.lean ====
section
/-! PROOF. Runs of several steps, and the step of a machine whose Host has no move left (41_session.md R200). -/

namespace Sys2Proof.Proofs
open Sys2Proof Sys2Proof.Machine

theorem run_succ_of_step {M : Host.Core} {s t : M.State} (h : M.step s = .next t) (k : Nat) :
    M.run (k + 1) s = M.run k t := by
  rw [Host.Core.run, h]

/-- A run goes on where a shorter one has come to. -/
theorem run_add {M : Host.Core} {s t : M.State} {j : Nat} (h : M.run j s = .next t) (k : Nat) :
    M.run (j + k) s = M.run k t := by
  induction j generalizing s with
  | zero => cases h; rw [Nat.zero_add]
  | succ j ih =>
    cases hstep : M.step s with
    | next u => rw [Nat.succ_add, run_succ_of_step hstep, ih ((run_succ_of_step hstep j).symm.trans h)]
    | fault r | refused r => rw [Host.Core.run, hstep] at h; cases h

/-- With no move left the Host is silent, and the step is the engine's. -/
theorem step_of_no_hostMoves {s : State} (h : s.hostMoves = []) : step s = engineStep s := by
  simp only [step, hostTurn, h]

end Sys2Proof.Proofs
end

