-- ==== Sys2Proof/Proofs/SessionEnds.lean ====
section
/-! PROOF. A running session ends within the steps 70_reset_and_hazards.md R321 counts. Every step of it that does not
lead to a terminal phase makes `stepsLeft` smaller: a request is answered in its phase, a response leads on in the order of
the phases, and the way back from READBACK to FETCH is paid for by the chunk that FETCH has taken from the File. -/

namespace Sys2Proof.Proofs
open Sys2Proof Sys2Proof.Machine

/-! ## What is left of the File and of the schedule -/

/-- A response takes nothing from the File and nothing from the Host's schedule. -/
theorem responseEnd_keeps {i : Instr} {r : Bytes} {s t : State} (h : ResponseEnd i r s t) :
    chunksLeft t = chunksLeft s ∧ t.hostMoves = s.hostMoves := by
  obtain ⟨hsame, -⟩ := responseEnd_writes h
  rw [hsame]
  exact ⟨rfl, rfl⟩

/-- No engine step spends an entry of the Host's schedule. -/
theorem engineEnd_hostMoves {s t : State} (h : EngineEnd s t) : t.hostMoves = s.hostMoves := by
  cases h with
  | response i r rs n _ _ _ _ _ e => exact ((responseEnd_keeps e).2 :)
  | wait _ _ e | done _ _ _ e | fetched _ _ _ e | refused _ _ _ e | sent _ _ _ _ _ _ _ _ _ e
  | unsent _ _ _ _ _ _ _ _ _ e | unread _ _ _ _ e => subst e; rfl

/-- Of `left` bytes, a chunk of `size` or of all that is left makes one of `ceil(left / size)` chunks. -/
theorem ceilDiv_after_chunk {size left : Nat} (hsize : 1 ≤ size) (hleft : 1 ≤ left) :
    (left - min size left + (size - 1)) / size + 1 = (left + (size - 1)) / size := by
  rw [← Nat.add_div_right _ hsize]
  rcases Nat.le_total size left with h | h
  · rw [Nat.min_eq_left h, show left - size + (size - 1) + size = left + (size - 1) by omega]
  · rw [Nat.min_eq_right h, Nat.div_eq_of_lt_le (k := 1), Nat.div_eq_of_lt_le (k := 1)] <;> omega

/-- A FETCH that takes a chunk leaves one fewer. -/
theorem chunksLeft_after_fetch {s t : State} (hsize : 1 ≤ s.params.chunkSize) (hne : nextBytes s ≠ [])
    (hparams : t.params = s.params) (hfile : t.file = s.file) (hfcur : t.fcur = s.fcur + (nextBytes s).length) :
    chunksLeft t + 1 = chunksLeft s := by
  have hlen : (nextBytes s).length = min s.params.chunkSize (s.file.length - s.fcur) := by simp [nextBytes]
  have hpos : 0 < (nextBytes s).length := List.length_pos_iff.2 hne
  rw [chunksLeft, hparams, hfile, hfcur, ← Nat.sub_sub, hlen]
  exact ceilDiv_after_chunk hsize (by omega)

/-! ## Every step counts -/

/-- The steps a phase leaves at most where the File holds no more chunks. -/
def phaseSteps (ph : Phase) (iop : IoPhase) : Nat := stepsLeft { State.reset with ph := ph, iop := iop }

/-- Each chunk costs five steps at most, on top of those of the phase. -/
theorem stepsLeft_of_running {s : State} (h : isRunning s.ph = true) :
    stepsLeft s = 5 * chunksLeft s + phaseSteps s.ph s.iop := by
  cases hp : s.ph <;> rw [hp] at h <;> cases h <;> cases hi : s.iop <;> simp only [stepsLeft, hp, hi] <;> rfl

theorem phaseSteps_pos {ph : Phase} (h : isRunning ph = true) (iop : IoPhase) : 0 < phaseSteps ph iop := by
  revert h; cases ph <;> cases iop <;> decide

/-- A step that ends the session, or leads on with fewer steps left. -/
def Counts (s t : State) : Prop := isTerminal t.ph = true ∨ (isRunning t.ph = true ∧ stepsLeft t < stepsLeft s)

/-- A step that takes no chunk counts where it leads from a phase to one with fewer steps. -/
theorem counts_of_phaseSteps {s t : State} (hs : isRunning s.ph = true) (ht : isRunning t.ph = true)
    (hchunks : chunksLeft t = chunksLeft s) (h : phaseSteps t.ph t.iop < phaseSteps s.ph s.iop) : Counts s t := by
  refine .inr ⟨ht, ?_⟩
  rw [stepsLeft_of_running hs, stepsLeft_of_running ht, hchunks]
  omega

theorem phaseSteps_recv_lt_send {ph : Phase} (h : isTransaction ph = true) :
    phaseSteps ph .recv < phaseSteps ph .send := by
  revert h; cases ph <;> decide

/-- A response leads to the end of the session, or to a phase with fewer steps. -/
theorem responseEnd_phase {i : Instr} {r : Bytes} {s t : State} (h : ResponseEnd i r s t) :
    isTerminal t.ph = true ∨
      (isRunning t.ph = true ∧ phaseSteps t.ph .send < phaseSteps (phaseOf i) .recv) := by
  rcases h with ⟨code, -, -, rfl⟩ | ⟨rfl, -, rfl⟩ | ⟨rfl, -, -, rfl⟩ | ⟨rfl, rfl⟩ | ⟨rfl, rfl⟩ | ⟨rfl, rfl⟩ |
    ⟨rfl, rfl, -⟩
  · exact .inl rfl
  · exact .inr ⟨rfl, (by decide : phaseSteps .info .send < phaseSteps .handshake .recv)⟩
  · exact .inr ⟨rfl, (by decide : phaseSteps .model .send < phaseSteps .info .recv)⟩
  · dsimp only
    split
    · exact .inr ⟨rfl, (by decide : phaseSteps .erase .send < phaseSteps .model .recv)⟩
    · exact .inr ⟨rfl, (by decide : phaseSteps .fetch .send < phaseSteps .model .recv)⟩
  · exact .inr ⟨rfl, (by decide : phaseSteps .fetch .send < phaseSteps .erase .recv)⟩
  · exact .inr ⟨rfl, (by decide : phaseSteps .readback .send < phaseSteps .write .recv)⟩
  · exact .inr ⟨rfl, (by decide : phaseSteps .fetch .send < phaseSteps .readback .recv)⟩

theorem counts_responseEnd {i : Instr} {r : Bytes} {s t : State} (hs : isRunning s.ph = true) (hr : s.iop = .recv)
    (hp : phaseOf i = s.ph) (h : ResponseEnd i r s t) : Counts s t := by
  obtain ⟨hsend, -⟩ := responseEnd_events h
  rcases responseEnd_phase h with hend | ⟨hrun, hlt⟩
  · exact .inl hend
  · exact counts_of_phaseSteps hs hrun (responseEnd_keeps h).1 (by rwa [hsend, hr, ← hp])

/-- Every phase after a FETCH has fewer steps left than the FETCH that took its chunk. -/
theorem counts_fetched {s t : State} (hp : s.ph = .fetch) (hi : s.iop = .send) (ht : t.ph = .write ∨ t.ph = .readback)
    (hti : t.iop = .send) (hchunks : chunksLeft t + 1 = chunksLeft s) : Counts s t := by
  have hrun : isRunning t.ph = true := isRunning_of_holdsChunk ht
  have hlt : phaseSteps t.ph .send < phaseSteps .fetch .send + 5 := by rcases ht with h | h <;> rw [h] <;> decide
  refine .inr ⟨hrun, ?_⟩
  rw [stepsLeft_of_running hrun, stepsLeft_of_running (s := s) (by rw [hp]; rfl), hp, hi, hti]
  omega

theorem counts_engineEnd {s t : State} (hinv : Inv s) (hrun : isRunning s.ph = true) (h : EngineEnd s t) :
    Counts s t := by
  cases h with
  | wait _ hp e => exact absurd (not_running_of_idle_or_terminal hp) (by rw [hrun]; decide)
  | done _ _ _ e | refused _ _ _ e | unsent _ _ _ _ _ _ _ _ _ e | unread _ _ _ _ e => subst e; exact .inl rfl
  | fetched hi hp hn e =>
    have hsize := one_le_chunkSize (inGoodStanding_of_running hinv hrun).accepted.2.1
    have hnext : t.ph = .write ∨ t.ph = .readback := by
      rw [e]; dsimp only; split
      · exact .inl rfl
      · exact .inr rfl
    have hchunks : chunksLeft t + 1 = chunksLeft s := by
      subst e; exact chunksLeft_after_fetch hsize hn rfl rfl rfl
    exact counts_fetched hp hi hnext (by rw [e]; exact hi) hchunks
  | sent i _ _ hi hp _ _ _ _ e =>
    subst e
    have hlt := phaseSteps_recv_lt_send (hp ▸ isTransaction_phaseOf i : isTransaction s.ph = true)
    rw [← hi] at hlt
    exact counts_of_phaseSteps hrun hrun rfl hlt
  | response i r rs n hi _ hpi _ _ e => exact counts_responseEnd (s := drawn rs n _ s) hrun hi hpi e

/-! ## The end -/

/-- What a session needs to run on: the invariant, read limits that fit, and a Host that stays silent. -/
structure RunsOn (s : State) : Prop where
  inv : Inv s
  limits : s.params.readLimitsFit = true
  silent : s.hostMoves = []

/-- A session that runs on takes a step that counts, and runs on after it. -/
theorem RunsOn.step_counts {s : State} (h : RunsOn s) (hrun : isRunning s.ph = true) :
    ∃ t, step s = .next t ∧ RunsOn t ∧ Counts s t := by
  obtain ⟨t, hstep⟩ := noStepFromTheInvariantStops s h.inv h.limits
  have hend : EngineEnd s t := engineStep_ends s t (step_of_no_hostMoves h.silent ▸ hstep)
  have hparams : t.params = s.params := ((configuration_eq_iff s t).1 (engineEnd_frame hend).1).1
  exact ⟨t, hstep, ⟨everyStepKeepsTheInvariant s t h.inv hstep, hparams ▸ h.limits,
    (engineEnd_hostMoves hend).trans h.silent⟩, counts_engineEnd h.inv hrun hend⟩

/-- Settles O47, by induction on the bound: after a step that counts the session has ended, or ends within the smaller
bound. -/
theorem everySessionEnds : Obligations.EverySessionEnds := by
  intro s hinv hlimits hsilent hrun
  have h : RunsOn s := ⟨hinv, hlimits, hsilent⟩
  clear hinv hlimits hsilent
  induction hn : stepsLeft s using Nat.strong_induction_on generalizing s with
  | _ n ih =>
    subst hn
    obtain ⟨t, hstep, ht, hend | ⟨hrun', hlt⟩⟩ := h.step_counts hrun
    · have hpos : 1 ≤ stepsLeft s := by
        have := phaseSteps_pos hrun s.iop
        rw [stepsLeft_of_running hrun]; omega
      exact ⟨1, t, hpos, run_succ_of_step hstep 0, hend⟩
    · obtain ⟨k, u, hk, hu, hterm⟩ := ih _ hlt t hrun' ht rfl
      exact ⟨k + 1, u, by omega, (run_succ_of_step hstep k).trans hu, hterm⟩

end Sys2Proof.Proofs
end

