-- ==== Sys2Proof/Proofs/SessionPoints.lean ====
section
/-! PROOF. The points of a session, and the steps that lead from one to the next where the device answers as
70_reset_and_hazards.md R304 asks. A point holds what the coming steps read of the machine, the Link's coming answers
and the record; an exchange is a request and its response (41_session.md R202 to R214, R218, R219). -/

namespace Sys2Proof.Proofs
open Sys2Proof Sys2Proof.Machine

/-! ## The points of a session -/

/-- How far a session has come, and what its Link still has to give. -/
structure Point where
  ph : Phase
  iop : IoPhase
  addr : Nat
  /-- The chunk fetched and not yet verified; empty outside WRITE and READBACK. -/
  chunk : Bytes
  /-- The Link takes this many frames more, or above. -/
  frames : Nat
  replies : List ReadResult
  record : List PortEvent

/-- CHUNK holds `c`, with its length and its checksum (41_session.md R210). -/
def Holds (c : Bytes) (s : State) : Prop :=
  s.clen = BitVec.ofNat 8 c.length ∧ s.cks = checksum c ∧ currentChunk s = .ok c

/-- The machine is at the point `x` of a session that was started with `cfg` on the File `f`. -/
structure At (p : Params) (cfg : StartCfg) (f : Bytes) (x : Point) (s : State) : Prop where
  params : s.params = p
  cfgWrite : s.cfgWrite = cfg.write
  cfgErase : s.cfgErase = cfg.erase
  cfgModel : s.cfgModel = cfg.model
  fsize : s.fsize = f.length
  file : s.file = f
  silent : s.hostMoves = []
  noError : s.err = .none
  ph : s.ph = x.ph
  iop : s.iop = x.iop
  addr : s.addr = x.addr
  cursor : s.fcur = x.addr + x.chunk.length
  holds : x.chunk ≠ [] → Holds x.chunk s
  frames : ∃ m, x.frames ≤ m ∧ s.linkWrites = List.replicate m .ok
  replies : s.linkReads = x.replies
  record : s.trace = x.record

/-- From a machine at the point `x` some steps lead to the point `y`. -/
def Leads (p : Params) (cfg : StartCfg) (f : Bytes) (x y : Point) : Prop :=
  ∀ s, At p cfg f x s → ∃ k t, core.run k s = .next t ∧ At p cfg f y t

/-- Legal parameters, and a File they hold. -/
structure Fits (p : Params) (f : Bytes) : Prop where
  inRange : p.inRange = true
  limits : p.readLimitsFit = true
  file : f.length < 2 ^ p.addrW

section
variable {p : Params} {cfg : StartCfg} {f : Bytes} {x y z : Point}

theorem Leads.trans (h : Leads p cfg f x y) (h' : Leads p cfg f y z) : Leads p cfg f x z := by
  intro s hs
  obtain ⟨j, t, ht, hat⟩ := h s hs
  obtain ⟨k, u, hu, hau⟩ := h' t hat
  exact ⟨j + k, u, (run_add ht k).trans hu, hau⟩

theorem leads_of_engineStep (h : ∀ s, At p cfg f x s → ∃ t, engineStep s = .next t ∧ At p cfg f y t) :
    Leads p cfg f x y := by
  intro s hs
  obtain ⟨t, hstep, ht⟩ := h s hs
  exact ⟨1, t, run_succ_of_step ((step_of_no_hostMoves hs.silent).trans hstep) 0, ht⟩

/-- A Link that takes more frames takes fewer. -/
theorem leads_fewer_frames {n : Nat} (h : n ≤ x.frames) : Leads p cfg f x { x with frames := n } := by
  intro s hs
  obtain ⟨m, hm, hw⟩ := hs.frames
  exact ⟨0, s, rfl, { hs with frames := ⟨m, h.trans hm, hw⟩ }⟩

/-! ## Exchanges -/

theorem leads_request {frame : Bytes} {n : Nat} (hn : x.frames = n + 1)
    (hframe : ∀ s t w, At p cfg f x s → drawWrite s = (w, t) → engineStep s = .next (afterFrame w frame t)) :
    Leads p cfg f x { x with iop := .recv, frames := n, record := x.record ++ [.tx frame] } := by
  refine leads_of_engineStep fun s hs => ?_
  obtain ⟨_ | m, hm, hw⟩ := hs.frames
  · omega
  have hdraw := drawWrite_ok s .ok (List.replicate m .ok) hw
  exact ⟨_, hframe s _ _ hs hdraw,
    { hs with
      iop := rfl, frames := ⟨m, Nat.le_of_succ_le_succ (hn.symm.trans_le hm), rfl⟩
      record := congrArg (· ++ [PortEvent.tx frame]) hs.record }⟩

theorem linkRead_eq_of_short {s : State} {r : Bytes} {rs : List ReadResult} {m : Nat}
    (h : s.linkReads = .data r :: rs) (hm : r.length ≤ m) :
    linkRead m s = (.data r, { s with linkReads := rs, trace := s.trace ++ [.rx m r] }) := by
  simp only [linkRead, drawRead_data s _ rs h, List.take_of_length_le hm, record]

theorem leads_response {r : Bytes} {rs : List ReadResult} {mk : ReadResult → Instr} (hr : x.iop = .recv)
    (hm : responseOf x.ph = some mk) (hreply : x.replies = .data r :: rs) (hl : r.length ≤ readLimit p x.ph)
    (haccept : ∀ s, At p cfg f { x with replies := rs, record := x.record ++ [.rx (readLimit p x.ph) r] } s →
      ∃ t, exec (mk (.data r)) s = .next t ∧ At p cfg f y t) : Leads p cfg f x y := by
  refine leads_of_engineStep fun s hs => ?_
  rw [engineStep_receive (hs.iop.trans hr) (by rw [hs.ph]; exact hm), hs.params, hs.ph,
    linkRead_eq_of_short (hs.replies.trans hreply) hl]
  exact haccept _ { hs with replies := rfl, record := congrArg (· ++ [PortEvent.rx (readLimit p x.ph) r]) hs.record }

/-- The point once a request `frame` has been sent and the string `r` has been read. -/
def Point.answered (p : Params) (frame r : Bytes) (n : Nat) (rs : List ReadResult) (x : Point) : Point :=
  { x with
    iop := .recv, frames := n, replies := rs
    record := x.record ++ [.tx frame, .rx (readLimit p x.ph) r] }

/-- A request and its response: the engine's registers build `frame`, the Link takes it, and the response to the
device's next answer leads on. -/
theorem leads_exchange (frame : Bytes) {r : Bytes} {n : Nat} {rs : List ReadResult} {mk : ReadResult → Instr}
    (hfit : Fits p f) (hn : x.frames = n + 1) (hm : responseOf x.ph = some mk) (hreply : x.replies = .data r :: rs)
    (hl : r.length ≤ readLimit p x.ph)
    (hframe : ∀ s t w, At p cfg f x s → drawWrite s = (w, t) → engineStep s = .next (afterFrame w frame t))
    (haccept : ∀ s, At p cfg f (x.answered p frame r n rs) s → r.length ≤ s.params.maxRespR →
      ∃ t, exec (mk (.data r)) s = .next t ∧ At p cfg f y t) : Leads p cfg f x y := by
  refine (leads_request hn hframe).trans (leads_response rfl hm hreply hl fun s hs => ?_)
  dsimp only at hs
  rw [List.append_assoc] at hs
  exact haccept s hs (hs.params ▸ hl.trans (readLimit_le_maxRespR hfit.limits x.ph))

/-- An accepted response that only changes the phase. -/
theorem At.enter {s : State} (h : At p cfg f x s) (r : Bytes) (ph : Phase) :
    At p cfg f { x with iop := .send, ph := ph } { received r s with ph := ph } :=
  { h with ph := rfl, iop := rfl }

end

section
variable {p : Params} {cfg : StartCfg} {f : Bytes} {a n : Nat} {c : Bytes} {rs : List ReadResult}
  {ev : List PortEvent}

theorem leads_handshake (hfit : Fits p f) :
    Leads p cfg f ⟨.handshake, .send, a, c, n + 1, .data strHello :: rs, ev⟩
      ⟨.info, .send, a, c, n, rs, ev ++ [PortEvent.tx buildH, PortEvent.rx p.maxRespH strHello]⟩ := by
  obtain ⟨hlen, -⟩ := Laws.inRange_bounds p hfit.inRange
  refine leads_exchange buildH hfit rfl rfl rfl hlen (fun s t w hs hw => ?_) fun s hs hl => ?_
  · obtain ⟨hbuilt, -⟩ := engineStep_builds hs.iop hw
    exact hbuilt hs.ph
  · obtain ⟨-, -, hend⟩ := handshakeResponse s hs.ph hs.iop
    exact ⟨_, (hend _ hl).1 rfl, hs.enter _ _⟩

theorem leads_info {info : Bytes} (hfit : Fits p f) (hone : 1 ≤ info.length) (hlen : info.length ≤ p.maxRespI) :
    Leads p cfg f ⟨.info, .send, a, c, n + 1, .data info :: rs, ev⟩
      ⟨.model, .send, a, c, n, rs, ev ++ [PortEvent.tx buildI, PortEvent.rx p.maxRespI info]⟩ := by
  refine leads_exchange buildI hfit rfl rfl rfl hlen (fun s t w hs hw => ?_) fun s hs hl => ?_
  · obtain ⟨-, hbuilt, -⟩ := engineStep_builds hs.iop hw
    exact hbuilt hs.ph
  · obtain ⟨-, -, hend⟩ := infoResponse s hs.ph hs.iop
    obtain ⟨haccept, -⟩ := hend _ hl (hs.params ▸ hlen)
    exact ⟨_, haccept (List.ne_nil_of_length_pos hone), { hs with ph := rfl, iop := rfl }⟩

theorem erases_iff : erases cfg = true ↔ cfg.model = .flash ∧ cfg.erase = true := by
  rw [erases, Bool.and_eq_true, beq_iff_eq]

theorem leads_model {m : Byte} (hfit : Fits p f) :
    Leads p cfg f ⟨.model, .send, a, c, n + 1, .data [modelDigit cfg.model, m] :: rs, ev⟩
      ⟨if erases cfg then .erase else .fetch, .send, a, c, n, rs,
        ev ++ [PortEvent.tx (buildM cfg.model), PortEvent.rx p.maxRespM [modelDigit cfg.model, m]]⟩ := by
  obtain ⟨-, hlen, -⟩ := Laws.inRange_bounds p hfit.inRange
  refine leads_exchange (buildM cfg.model) hfit rfl rfl rfl hlen (fun s t w hs hw => ?_) fun s hs hl => ?_
  · obtain ⟨-, -, hbuilt, -⟩ := engineStep_builds hs.iop hw
    exact hs.cfgModel ▸ hbuilt hs.ph
  · obtain ⟨-, -, hend⟩ := modelResponse s hs.ph hs.iop
    obtain ⟨herase, hkeep, -⟩ := hend _ hl
    rw [hs.cfgModel, hs.cfgErase, ← erases_iff] at herase hkeep
    split
    · next h => exact ⟨_, herase ⟨m, rfl⟩ h, hs.enter _ _⟩
    · next h => exact ⟨_, hkeep ⟨m, rfl⟩ h, hs.enter _ _⟩

/-- The erase frame of a session on the File `f` (41_session.md R208). -/
def eraseFrame (f : Bytes) : Bytes := buildFES 0 (BitVec.ofNat 8 (f.length / 4096 + 1))

theorem leads_erase {er : Bytes} (hfit : Fits p f) (hsize : f.length < 1044480) (hlen : er.length ≤ p.maxRespFES)
    (hval : valErased er = true) :
    Leads p cfg f ⟨.erase, .send, a, c, n + 1, .data er :: rs, ev⟩
      ⟨.fetch, .send, a, c, n, rs,
        ev ++ [PortEvent.tx (eraseFrame f), PortEvent.rx p.maxRespFES er]⟩ := by
  refine leads_exchange (eraseFrame f) hfit rfl rfl rfl hlen (fun s t w hs hw => ?_) fun s hs hl => ?_
  · obtain ⟨-, hbuilt⟩ := engineStep_erase hs.ph hs.iop (hs.params ▸ hfit.inRange) hw
    rw [hs.fsize] at hbuilt
    exact hbuilt hsize
  · obtain ⟨-, -, hend⟩ := eraseResponse s hs.ph hs.iop
    exact ⟨_, (hend _ hl).1 ((eraseResponseIsASubstringTest er).1 hval), hs.enter _ _⟩

theorem leads_write (hfit : Fits p f) (hne : c ≠ []) :
    Leads p cfg f ⟨.write, .send, a, c, n + 1, .data strWrited :: rs, ev⟩
      ⟨.readback, .send, a, c, n, rs,
        ev ++ [PortEvent.tx (buildW (checksum c) a c), PortEvent.rx p.maxRespW strWrited]⟩ := by
  obtain ⟨-, -, hlen, -⟩ := Laws.inRange_bounds p hfit.inRange
  refine leads_exchange (buildW (checksum c) a c) hfit rfl rfl rfl hlen (fun s t w hs hw => ?_) fun s hs hl => ?_
  · obtain ⟨-, hcks, hchunk⟩ := hs.holds hne
    obtain ⟨-, -, -, hbuilt, -⟩ := engineStep_builds hs.iop hw
    rw [hcks, hs.addr] at hbuilt
    exact hbuilt c hs.ph hchunk
  · obtain ⟨-, -, hend⟩ := writeResponse s hs.ph hs.iop
    exact ⟨_, (hend _ hl).1 rfl, hs.enter _ _⟩

/-! ## The read-back of a chunk -/

theorem readbackOf_length {hdr : Bytes} (hhdr : hdr.length = 6) (t : Byte) (a : Nat) (c : Bytes) :
    (readbackOf hdr t a c).length = 18 + 3 * c.length := by
  simp only [readbackOf, List.length_append, buildRef_length, hhdr, List.length_cons, List.length_nil]
  omega

theorem payload_readbackOf {hdr : Bytes} (hhdr : hdr.length = 6) (t : Byte) (a : Nat) (c : Bytes) :
    ((readbackOf hdr t a c).drop 6).dropLast = buildRef (checksum c) a c := by
  rw [readbackOf, List.append_assoc, List.drop_left' hhdr, List.dropLast_concat]

/-- The verified chunk moves `ADDR` behind it and reports the part of the File that is done. -/
theorem leads_readback {hdr : Bytes} {t : Byte} (hfit : Fits p f) (hhdr : hdr.length = 6) (hne : c ≠ [])
    (hsize : c.length ≤ p.chunkSize) (hin : a + c.length ≤ f.length) :
    Leads p cfg f ⟨.readback, .send, a, c, n + 1, .data (readbackOf hdr t a c) :: rs, ev⟩
      ⟨.fetch, .send, a + c.length, [], n, rs,
        ev ++ [PortEvent.tx (buildR a (BitVec.ofNat 8 c.length)), PortEvent.rx p.maxRespR (readbackOf hdr t a c),
          PortEvent.progress (BitVec.ofNat 7 ((a + c.length) * 100 / f.length))]⟩ := by
  have hlen := readbackOf_length hhdr t a c
  have hlimit : (readbackOf hdr t a c).length ≤ p.maxRespR := by
    obtain ⟨-, -, -, hmax⟩ := Laws.inRange_bounds p hfit.inRange
    omega
  have hpos : 0 < c.length := List.length_pos_iff.2 hne
  refine leads_exchange (buildR a (BitVec.ofNat 8 c.length)) hfit rfl rfl rfl hlimit (fun s t w hs hw => ?_)
    fun s hs hl => ?_
  · obtain ⟨-, -, -, -, hbuilt⟩ := engineStep_builds hs.iop hw
    rw [hs.addr, (hs.holds hne).1] at hbuilt
    exact hbuilt hs.ph
  · obtain ⟨hclen, hcks, hchunk⟩ := hs.holds hne
    have hcount : s.clen.toNat = c.length := hclen ▸ toNat_ofNat_length hfit.inRange hsize
    have haddr : (s.addr + s.clen.toNat) % 2 ^ s.params.addrW = a + c.length := by
      rw [hs.addr, hcount, hs.params]
      exact Nat.mod_eq_of_lt (hin.trans_lt hfit.file)
    obtain ⟨-, -, hend⟩ := readbackResponse s c hs.ph hs.iop (hs.params ▸ hfit.inRange) hchunk
    obtain ⟨-, -, hverified⟩ := hend _ hl
    obtain ⟨prog, hprog, hexec⟩ := hverified (hcount ▸ hlen)
      (by rw [hcks, hs.addr]; exact payload_readbackOf hhdr t a c)
    rw [haddr, hs.fsize] at hprog
    obtain rfl := hprog (by omega)
    refine ⟨_, hexec, { hs with
      ph := rfl, iop := rfl, addr := haddr, holds := fun h => absurd rfl h, record := ?_ }⟩
    exact (congrArg (· ++ [_]) hs.record).trans (List.append_assoc _ _ _)

/-! ## FETCH -/

theorem nextBytes_of_at {x : Point} {s : State} (h : At p cfg f x s) (hx : x.chunk = []) :
    nextBytes s = (f.drop x.addr).take p.chunkSize := by
  rw [nextBytes, h.file, h.cursor, hx, h.params, List.length_nil, Nat.add_zero]

theorem leads_fetch (hfit : Fits p f) (hc : (f.drop a).take p.chunkSize = c) (hne : c ≠ []) :
    Leads p cfg f ⟨.fetch, .send, a, [], n, rs, ev⟩
      ⟨if cfg.write then .write else .readback, .send, a, c, n, rs, ev ++ [PortEvent.file p.chunkSize c]⟩ := by
  refine leads_of_engineStep fun s hs => ?_
  have hnext : nextBytes s = c := (nextBytes_of_at hs rfl).trans hc
  have hfetch := (fetchChunk_next s _).2 (.inr ⟨hnext ▸ hne, rfl⟩)
  have hchunk : currentChunk (withLoaded c s) = .ok c :=
    currentChunk_withLoaded (hs.params ▸ hfit.inRange) (hs.params ▸ hc ▸ List.length_take_le _ _)
  rw [hnext, ← engineStep_fetch hs.ph hs.iop] at hfetch
  exact ⟨_, hfetch, { hs with
    ph := congrArg (fun b : Bool => if b then Phase.write else .readback) hs.cfgWrite
    cursor := congrArg (· + c.length) hs.cursor
    holds := fun _ => ⟨rfl, rfl, hchunk⟩
    record := congrArg₂ (fun l (q : Params) => l ++ [PortEvent.file q.chunkSize c]) hs.record hs.params }⟩

/-- At the File's end, or behind it, the read is empty. -/
theorem leads_done (hend : f.length ≤ a) :
    Leads p cfg f ⟨.fetch, .send, a, [], n, rs, ev⟩
      ⟨.done, .send, a, [], 0, rs, ev ++ [PortEvent.file p.chunkSize []]⟩ := by
  refine leads_of_engineStep fun s hs => ?_
  have hnext : nextBytes s = [] := by
    rw [nextBytes_of_at hs rfl, List.drop_of_length_le hend, List.take_nil]
  have hfetch := (fetchChunk_next s _).2 (.inl ⟨hnext, rfl⟩)
  rw [← engineStep_fetch hs.ph hs.iop] at hfetch
  obtain ⟨m, -, hw⟩ := hs.frames
  exact ⟨_, hfetch, { hs with
    ph := rfl
    frames := ⟨m, Nat.zero_le m, hw⟩
    record := congrArg₂ (fun l (q : Params) => l ++ [PortEvent.file q.chunkSize []]) hs.record hs.params }⟩

end

end Sys2Proof.Proofs
end

