-- ==== Sys2Proof/Proofs/GoodDevice.lean ====
section
/-! PROOF. A session with a device that answers as 70_reset_and_hazards.md R304 asks reaches `DONE` with the port trace
of 41_session.md R225: START, the exchanges before the chunk loop, and the loop, an induction over the chunks of R223. -/

namespace Sys2Proof.Proofs
open Sys2Proof Sys2Proof.Machine

section
variable {p : Params} {cfg : StartCfg} {f : Bytes} {a n : Nat} {c : Bytes} {rs : List ReadResult}
  {ev : List PortEvent}

/-! ## The chunk loop -/

/-- The device's answers to one chunk. -/
def chunkReplies (cfg : StartCfg) (hdr : Bytes) (t : Byte) (ac : Nat × Bytes) : List ReadResult :=
  (if cfg.write then [ReadResult.data strWrited] else []) ++ [ReadResult.data (readbackOf hdr t ac.1 ac.2)]

/-- The port operations of one chunk (41_session.md R225, R226). -/
def chunkEvents (p : Params) (cfg : StartCfg) (f hdr : Bytes) (t : Byte) (ac : Nat × Bytes) : List PortEvent :=
  [PortEvent.file p.chunkSize ac.2] ++
  (if cfg.write then [PortEvent.tx (buildW (checksum ac.2) ac.1 ac.2), PortEvent.rx p.maxRespW strWrited] else []) ++
  [PortEvent.tx (buildR ac.1 (BitVec.ofNat 8 ac.2.length)), PortEvent.rx p.maxRespR (readbackOf hdr t ac.1 ac.2),
    PortEvent.progress (BitVec.ofNat 7 ((ac.1 + ac.2.length) * 100 / f.length))]

/-- The answers of R304 are those before the loop, then those to each chunk. -/
theorem goodReplies_eq (p : Params) (cfg : StartCfg) (f info er hdr : Bytes) (m t : Byte) :
    goodReplies p cfg f info er hdr m t =
      [ReadResult.data strHello, .data info, .data [modelDigit cfg.model, m]] ++
        (if erases cfg then [ReadResult.data er] else []) ++
        (sessionChunks p f cfg.start).flatMap (chunkReplies cfg hdr t) := rfl

/-- One round of the loop: FETCH, WRITE where it is enabled, READBACK. -/
theorem leads_round {hdr : Bytes} {t : Byte} (hfit : Fits p f) (hhdr : hdr.length = 6)
    (hc : (f.drop a).take p.chunkSize = c) (hne : c ≠ []) :
    Leads p cfg f ⟨.fetch, .send, a, [], n + 2, chunkReplies cfg hdr t (a, c) ++ rs, ev⟩
      ⟨.fetch, .send, a + c.length, [], n, rs, ev ++ chunkEvents p cfg f hdr t (a, c)⟩ := by
  have hlen : c.length = min p.chunkSize (f.length - a) := by rw [← hc, List.length_take, List.length_drop]
  have hpos : 0 < c.length := List.length_pos_iff.2 hne
  have hsize : c.length ≤ p.chunkSize := by omega
  have hin : a + c.length ≤ f.length := by omega
  refine (leads_fetch hfit hc hne).trans ?_
  unfold chunkReplies chunkEvents
  cases cfg.write with
  | false =>
    have hback := (leads_readback (n := n + 1) (rs := rs) (cfg := cfg) (t := t)
      (ev := ev ++ [PortEvent.file p.chunkSize c]) hfit hhdr hne hsize hin).trans
      (leads_fewer_frames (n := n) (Nat.le_succ n))
    simpa using hback
  | true =>
    have hback := (leads_write (n := n + 1) (cfg := cfg) (ev := ev ++ [PortEvent.file p.chunkSize c]) hfit hne).trans
      (leads_readback (n := n) (rs := rs) (t := t) hfit hhdr hne hsize hin)
    simpa using hback

theorem chunksFrom_of_le {size m : Nat} (h : f.length ≤ a) : chunksFrom size f m a = [] := by
  cases m with
  | zero => rfl
  | succ m => exact if_pos h

theorem chunksFrom_succ_of_lt {size m : Nat} (h : a < f.length) :
    chunksFrom size f (m + 1) a =
      (a, (f.drop a).take size) :: chunksFrom size f m (a + ((f.drop a).take size).length) :=
  if_neg (not_le.2 h)

/-- The loop, by induction on the chunks that the File may still hold: one byte each at least, two frames each at
most. -/
theorem leads_chunks {hdr : Bytes} {t : Byte} (hfit : Fits p f) (hhdr : hdr.length = 6) (m : Nat)
    (h : f.length ≤ a + m) :
    Leads p cfg f
      ⟨.fetch, .send, a, [], 2 * m, (chunksFrom p.chunkSize f m a).flatMap (chunkReplies cfg hdr t), ev⟩
      ⟨.done, .send, max a f.length, [], 0, [],
        ev ++ (chunksFrom p.chunkSize f m a).flatMap (chunkEvents p cfg f hdr t) ++
          [PortEvent.file p.chunkSize []]⟩ := by
  induction m generalizing a ev with
  | zero =>
    rw [Nat.add_zero] at h
    rw [chunksFrom_of_le h, Nat.max_eq_left h, List.flatMap_nil, List.flatMap_nil, List.append_nil]
    exact leads_done h
  | succ m ih =>
    rcases Nat.lt_or_ge a f.length with ha | ha
    · have hsize := one_le_chunkSize hfit.inRange
      have hlen : ((f.drop a).take p.chunkSize).length = min p.chunkSize (f.length - a) := by
        rw [List.length_take, List.length_drop]
      have hmax : max (a + ((f.drop a).take p.chunkSize).length) f.length = max a f.length := by omega
      rw [chunksFrom_succ_of_lt ha, List.flatMap_cons, List.flatMap_cons, ← List.append_assoc, ← hmax]
      exact (leads_round hfit hhdr rfl (List.ne_nil_of_length_pos (by omega))).trans (ih (by omega))
    · rw [chunksFrom_of_le ha, Nat.max_eq_left ha, List.flatMap_nil, List.flatMap_nil, List.append_nil]
      exact leads_done ha

/-! ## From the launch to the loop -/

/-- START, where all its checks pass. -/
theorem start_leads_to_handshake {replies : List ReadResult} (hfit : Fits p f) (hv : p.variant = .canonical)
    (hstart : cfg.start < 2 ^ p.addrW) :
    ∃ s, step (launchState p cfg f replies) = .next s ∧
      At p cfg f ⟨.handshake, .send, cfg.start, [], 2 * f.length + 4, replies,
        [.fileSize f.length, .linkIsOpen true]⟩ s := by
  have hsize : f.length < 2 ^ p.fsizeW := (fsizeW_eq_addrW hfit.inRange).symm ▸ hfit.file
  obtain ⟨-, -, -, -, hopen⟩ :=
    startFollowsItsChecksInOrder (launchState p cfg f replies) cfg [] rfl rfl rfl
  refine ⟨_, hopen hv hfit.inRange hsize rfl, ?_⟩
  exact {
    params := rfl, cfgWrite := rfl, cfgErase := rfl, cfgModel := rfl, fsize := rfl, file := rfl, silent := rfl
    noError := rfl, ph := rfl, iop := rfl, addr := Nat.mod_eq_of_lt hstart, cursor := rfl
    holds := fun h => absurd rfl h, frames := ⟨_, le_rfl, rfl⟩, replies := rfl, record := rfl }

/-- The exchanges before the chunk loop, with the erase exactly where it is enabled (41_session.md R221). -/
theorem leads_to_loop {info er : Bytes} {m : Byte} (hfit : Fits p f) (hone : 1 ≤ info.length)
    (hinfo : info.length ≤ p.maxRespI) (hsize : erases cfg = true → f.length < 1044480)
    (her : er.length ≤ p.maxRespFES) (hval : valErased er = true) :
    Leads p cfg f
      ⟨.handshake, .send, a, [], n + 4,
        [ReadResult.data strHello, .data info, .data [modelDigit cfg.model, m]] ++
          (if erases cfg then [ReadResult.data er] else []) ++ rs, ev⟩
      ⟨.fetch, .send, a, [], n, rs,
        ev ++ [PortEvent.tx buildH, PortEvent.rx p.maxRespH strHello, PortEvent.tx buildI, PortEvent.rx p.maxRespI info,
          PortEvent.tx (buildM cfg.model), PortEvent.rx p.maxRespM [modelDigit cfg.model, m]] ++
          (if erases cfg then [PortEvent.tx (eraseFrame f), PortEvent.rx p.maxRespFES er] else [])⟩ := by
  have hmodel (rs : List ReadResult) := ((leads_handshake (cfg := cfg) (a := a) (c := []) (n := n + 3) (ev := ev)
    hfit).trans (leads_info hfit hone hinfo)).trans (leads_model (n := n + 1) (rs := rs) (m := m) hfit)
  cases he : erases cfg with
  | false =>
    have hfetch := (hmodel rs).trans (leads_fewer_frames (n := n) (Nat.le_succ n))
    simpa [he] using hfetch
  | true =>
    have hmodel := hmodel (.data er :: rs)
    rw [if_pos he] at hmodel
    have hfetch := hmodel.trans (leads_erase (n := n) hfit (hsize he) her hval)
    simpa using hfetch

end

/-- Settles O48: START, the exchanges before the loop, and the loop, one after the other. -/
theorem aGoodDeviceLeadsToDone : Obligations.AGoodDeviceLeadsToDone := by
  intro p cfg f info er hdr m t hv hr hlimits hfile hstart hsize hone hinfo her hval hhdr
  have hfit : Fits p f := ⟨hr, hlimits, fsizeW_eq_addrW hr ▸ hfile⟩
  obtain ⟨s, hstep, hs⟩ :=
    start_leads_to_handshake (replies := goodReplies p cfg f info er hdr m t) hfit hv hstart
  have hpreamble := leads_to_loop (cfg := cfg) (a := cfg.start) (m := m) (n := 2 * f.length)
    (rs := (sessionChunks p f cfg.start).flatMap (chunkReplies cfg hdr t))
    (ev := [.fileSize f.length, .linkIsOpen true]) hfit hone hinfo hsize her hval
  have hloop := hpreamble.trans (leads_chunks hfit hhdr f.length (Nat.le_add_left _ _))
  rw [goodReplies_eq] at hs
  obtain ⟨k, u, hrun, hu⟩ := hloop s hs
  exact ⟨k + 1, u, (run_succ_of_step hstep k).trans hrun, hu.ph, hu.noError, hu.addr, hu.record⟩

end Sys2Proof.Proofs
end
